-- ==== Sys2Proof/Word.lean ====
section
/-! DEFINITION. The value types of 00_scope.md rule R10: every value is unsigned. -/
namespace Sys2Proof

/-- `u64` of rule R10: every arithmetic value of the block (rule R7). -/
abbrev Word := BitVec 64

/-- `u32` of rule R10: a command word, a STATUS value, a 4-byte tail word. -/
abbrev Word32 := BitVec 32

/-- `u8` of rule R10: one byte of input. -/
abbrev Byte := BitVec 8

end Sys2Proof
end

