-- ==== Sys2Proof/Syntax.lean ====
section
/-! DEFINITION. The rows of spec/opcode_table.json: four commands (format CMD32, 30_encoding.md rule R72) and thirteen
internal datapath operations (format UOP, rule R82). No row has an operand field (rule R73): a command takes its operands
from the operand registers, a datapath operation from the datapath record. -/
namespace Sys2Proof

inductive Instr where
  /-- INIT, 42_streaming.md rule R160. -/
  | init
  /-- WRITE, rule R162. -/
  | write
  /-- FINISH, rule R164. -/
  | finish
  /-- HASH, 43_oneshot.md rule R190. -/
  | hash
  /-- LANE_INIT, 40_mixing_core.md rule R102. -/
  | laneInit
  /-- SHORT_INIT, rule R103. -/
  | shortInit
  /-- ROUND, rule R104. -/
  | round
  /-- MERGE, rule R105. -/
  | merge
  /-- CONVERGE, rule R106. -/
  | converge
  /-- LEN_ADD, rule R107. -/
  | lenAdd
  /-- AVALANCHE, rule R108. -/
  | avalanche
  /-- STRIPE, 41_stripe_tail.md rule R130. -/
  | stripe
  /-- STRIPES, rule R131. -/
  | stripes
  /-- TAIL8, rule R133. -/
  | tail8
  /-- TAIL4, rule R134. -/
  | tail4
  /-- TAIL1, rule R135. -/
  | tail1
  /-- TAIL, rule R136. -/
  | tail
  deriving DecidableEq, Repr

end Sys2Proof
end

