-- ==== Sys2Proof/Decode.lean ====
section
/-! DEFINITION. Decoding and encoding: CMD words by 30_encoding.md rule R74, datapath labels by rule R82. Total on any bytes;
what names nothing is rejected by name. -/
namespace Sys2Proof

/-- Why bytes name no instruction. -/
inductive Reject where
  /-- A CMD word with RSVD (bits [31:8]) not zero (rule R75). -/
  | reservedBits
  /-- A CMD word with OPC 0x00 or 0x05..0xFF (rule R75). -/
  | reservedOpcode
  /-- A label 0x00 or 0x0E..0x1F, or a byte above the 5-bit labels (rule R82). -/
  | unnamedLabel
  /-- Neither the four bytes of a CMD word (rule R76) nor the one byte that carries a label. -/
  | badLength
  deriving DecidableEq, Repr

/-- An encoded instruction: a CMD word (rule R71) or a datapath label (rule R82). -/
inductive Encoded where
  | cmd32 (w : Word32)
  | uop (label : BitVec 5)
  deriving DecidableEq, Repr

/-- `decode` of rule R74: total on every 32-bit value. -/
def decodeCmd (w : Word32) : Except Reject Instr :=
  let opc := w.extractLsb' 0 8
  if w.extractLsb' 8 24 ≠ 0 then .error .reservedBits
  else if opc = 0x01 then .ok .init
  else if opc = 0x02 then .ok .write
  else if opc = 0x03 then .ok .finish
  else if opc = 0x04 then .ok .hash
  else .error .reservedOpcode

/-- The datapath operation a UOP label names (rule R82). -/
def decodeUop (label : BitVec 5) : Except Reject Instr :=
  if label = 0x01 then .ok .laneInit
  else if label = 0x02 then .ok .shortInit
  else if label = 0x03 then .ok .round
  else if label = 0x04 then .ok .merge
  else if label = 0x05 then .ok .converge
  else if label = 0x06 then .ok .lenAdd
  else if label = 0x07 then .ok .avalanche
  else if label = 0x08 then .ok .stripe
  else if label = 0x09 then .ok .stripes
  else if label = 0x0A then .ok .tail8
  else if label = 0x0B then .ok .tail4
  else if label = 0x0C then .ok .tail1
  else if label = 0x0D then .ok .tail
  else .error .unnamedLabel

/-- A byte that carries a label in its low five bits and zero above them. -/
def decodeLabelByte (b : Byte) : Except Reject Instr :=
  if b.extractLsb' 5 3 ≠ 0 then .error .unnamedLabel else decodeUop (b.extractLsb' 0 5)

/-- The CMD word of four bytes, the first the least significant (20_memory.md rule R61). -/
def cmdWord (b0 b1 b2 b3 : Byte) : Word32 :=
  b0.setWidth 32 ||| (b1.setWidth 32 <<< 8) ||| (b2.setWidth 32 <<< 16) ||| (b3.setWidth 32 <<< 24)

/-- Decoding of any bytes: four bytes are a CMD word as the window lays it out, little-endian (20_memory.md rule R61); one
byte is a label. -/
def decode (bs : List Byte) : Except Reject Instr :=
  match bs with
  | [b] => decodeLabelByte b
  | [b0, b1, b2, b3] => decodeCmd (cmdWord b0 b1 b2 b3)
  | _ => .error .badLength

/-- The encoding of each row (rules R72 and R82). -/
def encode : Instr → Encoded
  | .init => .cmd32 0x00000001
  | .write => .cmd32 0x00000002
  | .finish => .cmd32 0x00000003
  | .hash => .cmd32 0x00000004
  | .laneInit => .uop 0x01
  | .shortInit => .uop 0x02
  | .round => .uop 0x03
  | .merge => .uop 0x04
  | .converge => .uop 0x05
  | .lenAdd => .uop 0x06
  | .avalanche => .uop 0x07
  | .stripe => .uop 0x08
  | .stripes => .uop 0x09
  | .tail8 => .uop 0x0A
  | .tail4 => .uop 0x0B
  | .tail1 => .uop 0x0C
  | .tail => .uop 0x0D

/-- The bytes of an encoded instruction, lowest address first. -/
def encodedBytes : Encoded → List Byte
  | .cmd32 w => [w.extractLsb' 0 8, w.extractLsb' 8 8, w.extractLsb' 16 8, w.extractLsb' 24 8]
  | .uop l => [l.setWidth 8]

/-- The low n bytes of a number, least significant first. -/
def leBytes : Nat → Nat → List Byte
  | 0, _ => []
  | n + 1, w => BitVec.ofNat 8 w :: leBytes n (w / 256)

/-- The instruction the decoder reads from a row's bits, numbered as spec/opcode_table.json numbers them: a 32-bit row is a
CMD word, a row of at most eight bits is the byte that carries a label (log 26). -/
def decodeTableWord (nbits w : Nat) : Option Instr :=
  match decode (leBytes ((nbits + 7) / 8) w) with
  | .ok i => some i
  | .error _ => none

end Sys2Proof
end

