-- ==== Sys2Proof/Config.lean ====
section
/-! DEFINITION. What an implementation fixes (00_scope.md rule R8), as the values State.reset starts with, and the one free
value of the model. -/
namespace Sys2Proof.Config

/-- `ADDR_W` after reset: the spec's default (rule R8). Every statement ranges over the field of State that holds it. -/
def addrWDefault : Nat := 64

/-- `XXH_BASE` after reset. The spec leaves it OPEN; DESIGN CHOICE 0 (log 7). -/
def xxhBaseDefault : Nat := 0

/-- What a source byte that nothing has placed reads as. The spec gives the source memory no contents; DESIGN CHOICE 0
(log 6). -/
def unlistedByte (_addr : Nat) : Byte := 0

/-- The free value of a carry-buffer byte at an index not below BUFLEN (10_state.md rule R35, 42_streaming.md rules R160 and
R163): the n-th time such bytes become unspecified, byte i of the buffer. Nothing is known of it (log 5). -/
opaque freeBufByte (n i : Nat) : Byte

end Sys2Proof.Config
end

