-- ==== Sys2Proof/Machine/State.lean ====
section
/-! DEFINITION. The machine's state as plain data: the host-visible registers (10_state.md rule R22), the context (rule R30),
the source memory (20_memory.md rule R50), the platform's parameters (00_scope.md rule R8), the host's pending events and
read values, and the model's own datapath record. -/
namespace Sys2Proof.Machine

/-- STATUS.ERR codes (60_exceptions.md rule R211); codes 5..15 are never produced, so they have no name. -/
inductive ErrCode where
  | none
  | illegalCmd
  | noContext
  | lenOverflow
  | addrRange
  deriving DecidableEq, Repr

/-- The three operand registers (10_state.md rule R29). -/
inductive OperandName where
  | seedIn
  | srcAddr
  | lenIn
  deriving DecidableEq, Repr

/-- Why the machine stops with a fault. -/
inductive Fault where
  /-- Stuck: a byte of the source range is not admitted (20_memory.md rule R56). Raised by WRITE and HASH. Safe: the
  platform's outcome is a bus error or a hang. -/
  | sourceNotAdmitted
  deriving DecidableEq, Repr

/-- Why a step has no meaning: the spec's refusals of 60_exceptions.md rule R217, and the model's own. -/
inductive Refusal where
  /-- An instruction without a meaning, by its mnemonic. No arm of exec answers it. -/
  | notModelled (mnemonic : String)
  /-- A CMD write while BUSY = 1 (70_reset_and_hazards.md rule R251). Raised by a host write. Safe: no move. -/
  | cmdWhileBusy
  /-- A host read of STATUS or DIGEST while BUSY = 1 (rule R254, 93_implementation_defined.md U13). Raised by a host read.
  Safe: no move. -/
  | resultWhileBusy
  /-- A host access of another width or alignment (20_memory.md rule R61). Raised by host reads and writes. Safe: no move. -/
  | illegalAccess
  /-- A host access outside the register window: another device's (log 18). Raised by host reads and writes. Safe. -/
  | outsideWindow
  /-- A source range that covers an address with read side effects (70_reset_and_hazards.md rule R253). Raised by WRITE and
  HASH. Safe: no move. -/
  | sideEffectingSource
  /-- A host store to an address that is no source memory (log 18). Raised by a host store. Safe. -/
  | storeOutsideMemory
  /-- A host store into the source range of a WRITE or HASH whose end the host has not observed (70_reset_and_hazards.md rule
  R252). Raised by a host store. Safe: no move. -/
  | storeIntoRunningSource
  /-- A datapath event whose label names nothing (30_encoding.md rule R82, log 26). Safe: no interface carries it. -/
  | unnamedLabel
  deriving DecidableEq, Repr

/-- A use of an unspecified value: what 60_exceptions.md rules R215 and R216 call a fault of the model, while the hardware goes
on with an unspecified value. The machine goes on with the value held and records the use (log 4). -/
inductive UnspecifiedUse where
  /-- A command read an operand register unwritten since reset (rule R215). -/
  | operand (r : OperandName)
  /-- A host read DIGEST while DIGEST_VALID = 0 (rule R216). -/
  | digest
  deriving DecidableEq, Repr

/-- The Accumulator Quad ACC1..ACC4 (10_state.md rule R30). -/
structure Quad where
  acc1 : Word
  acc2 : Word
  acc3 : Word
  acc4 : Word
  deriving DecidableEq, Repr

/-- An operand register and its written-ness, a flag for each half (10_state.md rule R29, 20_memory.md rule R61). -/
structure OperandReg where
  value : Word
  loWritten : Bool
  hiWritten : Bool
  deriving DecidableEq, Repr

/-- The context (10_state.md rule R30). -/
structure Context where
  /-- CTX_VALID; STATUS.CTX_VALID is a copy of it (rule R24). -/
  valid : Bool
  /-- CTX_SEED. -/
  seed : Word
  /-- ACC1..ACC4. -/
  quad : Quad
  /-- BUF[0..31], the carry buffer. -/
  buf : Vector Byte 32
  /-- BUFLEN. -/
  bufLen : BitVec 6
  /-- TOTAL_LEN. -/
  totalLen : Word
  deriving DecidableEq, Repr

/-- What the platform's memory is at a region of source addresses. -/
inductive RegionKind where
  /-- Memory without read side effects (20_memory.md rule R60). -/
  | memory
  /-- Admitted for reading, with read side effects (rule R60). -/
  | readSideEffects
  deriving DecidableEq, Repr

/-- One region of source addresses that the platform admits. -/
structure Region where
  base : Nat
  size : Nat
  kind : RegionKind
  deriving DecidableEq, Repr

/-- The parameters the model takes as an argument (00_scope.md rule R8). No step changes them. -/
structure Params where
  /-- XXH_BASE. -/
  xxhBase : Nat
  /-- ADDR_W. -/
  addrW : Nat
  /-- SrcAdmit: an address in no region is not admitted (log 8). -/
  regions : List Region
  deriving DecidableEq, Repr

/-- The model's own operand and result record of the internal datapath operations (log 1): the working quad, accumulator and
byte position of 10_state.md rule R39, and the operands that 40_mixing_core.md and 41_stripe_tail.md name. No command reads
or writes it. -/
structure Datapath where
  /-- `seed` of LANE_INIT and SHORT_INIT. -/
  seed : Word
  /-- The accumulator: `acc`. -/
  acc : Word
  /-- `lane` of ROUND and MERGE, `w` of TAIL8. -/
  word : Word
  /-- `w` of TAIL4. -/
  word32 : Word32
  /-- `b` of TAIL1. -/
  byte : Byte
  /-- `total` of LEN_ADD. -/
  total : Word
  /-- The quad `q`. -/
  quad : Quad
  /-- `blk` of STRIPE: exactly 32 bytes. -/
  blk : Vector Byte 32
  /-- `d` of STRIPES, `t` of TAIL. -/
  bytes : List Byte
  /-- The byte position `p` that STRIPES returns. -/
  pos : Nat
  deriving DecidableEq, Repr

/-- One event from outside the block, in the host's program order (log 2). -/
inductive Event where
  /-- A host write of `width` bytes at a host address (W32, W64 of 30_encoding.md rule R85). -/
  | write (addr width : Nat) (value : Word)
  /-- A host read of `width` bytes at a host address (R32, R64 of rule R85). -/
  | read (addr width : Nat)
  /-- The pseudo-instruction WAIT (rule R86). -/
  | wait
  /-- A host store of one byte to the source memory (20_memory.md rule R64). -/
  | store (addr : Nat) (value : Byte)
  /-- The platform asserts reset (70_reset_and_hazards.md rule R240). -/
  | reset
  /-- The model's own: the block's internals present operands to the datapath (log 1). -/
  | operands (dp : Datapath)
  /-- The model's own: a datapath operation by the byte that carries its label (log 1). -/
  | uop (label : Byte)
  deriving DecidableEq, Repr

/-- One value the host has read (70_reset_and_hazards.md rule R257). -/
structure HostRead where
  addr : Nat
  width : Nat
  value : Word
  deriving DecidableEq, Repr

/-- The source memory: address and byte, in canonical form (`Memory.wf`). -/
abbrev Memory := List Host.Cell

structure State where
  /-- STATUS.BUSY (10_state.md rule R24). -/
  busy : Bool
  /-- STATUS.ERR. -/
  err : ErrCode
  /-- STATUS.DIGEST_VALID. -/
  digestValid : Bool
  /-- SEED_IN (rule R25). -/
  seedIn : OperandReg
  /-- SRC_ADDR (rule R26). -/
  srcAddr : OperandReg
  /-- LEN_IN (rule R27). -/
  lenIn : OperandReg
  /-- DIGEST (rule R28). -/
  digest : Word
  /-- The context (rule R30). -/
  ctx : Context
  /-- The source memory (20_memory.md rule R50). -/
  mem : Memory
  /-- The platform's parameters (00_scope.md rule R8). -/
  params : Params
  /-- The host's read values, newest first (70_reset_and_hazards.md rule R257). -/
  reads : List HostRead
  /-- The source ranges, as address and length, of the WRITEs and HASHes accepted since the host last observed BUSY = 0
  (70_reset_and_hazards.md rule R252, log 23). -/
  unobserved : List (Nat × Nat)
  /-- The model's faults of 60_exceptions.md rules R215 and R216, newest first, never cleared (log 4). A state that holds one is
  rule R215's faulted state. -/
  modelFaults : List UnspecifiedUse
  /-- The events still to come, next first (log 2). -/
  pending : List Event
  /-- The model's own counter behind the free carry-buffer bytes (log 5). -/
  freeCount : Nat
  /-- The model's own datapath record (log 1). -/
  dp : Datapath
  deriving DecidableEq, Repr

/-- An operand register nothing has written since reset (10_state.md rule R41); the value it holds is DESIGN CHOICE 0
(log 3). -/
def OperandReg.unwritten : OperandReg := ⟨0, false, false⟩

/-- The quad whose four lanes are zero. -/
def Quad.zero : Quad := ⟨0, 0, 0, 0⟩

/-- The context after reset: CTX_VALID = 0 (10_state.md rule R41); the spec leaves the rest unspecified, DESIGN CHOICE 0
(log 3). -/
def Context.reset : Context := ⟨false, 0, Quad.zero, Vector.replicate 32 0, 0, 0⟩

/-- The datapath record before anything is presented to it: DESIGN CHOICE zero and empty (log 1). -/
def Datapath.idle : Datapath := ⟨0, 0, 0, 0, 0, 0, Quad.zero, Vector.replicate 32 0, [], 0⟩

/-- The platform assumed at reset: the spec's default ADDR_W; XXH_BASE and SrcAdmit are OPEN, DESIGN CHOICE (log 7). -/
def Params.default : Params := ⟨Config.xxhBaseDefault, Config.addrWDefault, [⟨0, 2 ^ 64, .memory⟩]⟩

/-- The machine right after reset (10_state.md rule R41, 70_reset_and_hazards.md rule R240). -/
def State.reset : State where
  busy := false
  err := .none
  digestValid := false
  seedIn := .unwritten
  srcAddr := .unwritten
  lenIn := .unwritten
  digest := 0
  ctx := .reset
  mem := []
  params := .default
  reads := []
  unobserved := []
  modelFaults := []
  pending := []
  freeCount := 0
  dp := .idle

/-- What a meaning answers. -/
abbrev Result := Host.Outcome State Fault Refusal

end Sys2Proof.Machine
end

