-- ==== Sys2Proof/Machine/Flags.lean ====
section
/-! DEFINITION. The STATUS register and the writers of its fields (10_state.md rules R24 and R40, 60_exceptions.md rule
R211). The block has no condition codes (rule R40). -/
namespace Sys2Proof.Machine

/-- The 4-bit code of STATUS.ERR (60_exceptions.md rule R211). -/
def errCode : ErrCode → BitVec 4
  | .none => 0
  | .illegalCmd => 1
  | .noContext => 2
  | .lenOverflow => 3
  | .addrRange => 4

/-- STATUS as a host reads it (10_state.md rule R24): ERR [7:4], reserved [3] and [31:8] zero, DIGEST_VALID [2],
CTX_VALID [1], BUSY [0]. -/
def statusWord (s : State) : Word32 :=
  (0 : BitVec 24) ++ errCode s.err ++ (0 : BitVec 1) ++ BitVec.ofBool s.digestValid ++ BitVec.ofBool s.ctx.valid
    ++ BitVec.ofBool s.busy

/-- The start of every command sets BUSY (rule R40). -/
def startCommand (s : State) : State := { s with busy := true }

/-- A command that reaches its end without raising: ERR becomes NONE, BUSY is cleared (42_streaming.md template, rule R40). -/
def completeCommand (s : State) : State := { s with err := .none, busy := false }

/-- The result of a FINISH or HASH: DIGEST and DIGEST_VALID (rule R28). -/
def setDigest (v : Word) (s : State) : State := { s with digest := v, digestValid := true }

end Sys2Proof.Machine
end

