-- ==== Sys2Proof/Machine/Ops.lean ====
section
/-! DEFINITION. The named operations over memory and registers, the block's one exception mechanism (raising a command error,
60_exceptions.md rule R210), and reset (70_reset_and_hazards.md rule R240). There is no return from an exception: the block
has no trap mechanism (rules R222 and R223). -/
namespace Sys2Proof.Machine

/-- The byte a source address holds; an unlisted address reads as `Config.unlistedByte` (log 6). -/
def Memory.read : Memory → Nat → Byte
  | [], a => Config.unlistedByte a
  | (k, b) :: m, a => if k = a then b else Memory.read m a

/-- A host store of one byte, keeping the canonical form. -/
def Memory.write : Memory → Nat → Byte → Memory
  | [], a, b => if b = Config.unlistedByte a then [] else [(a, b)]
  | (k, c) :: m, a, b =>
    if a < k then (if b = Config.unlistedByte a then (k, c) :: m else (a, b) :: (k, c) :: m)
    else if a = k then (if b = Config.unlistedByte a then m else (a, b) :: m)
    else (k, c) :: Memory.write m a b

/-- Every address of m is above `lo`. -/
def Memory.above (lo : Nat) : Memory → Bool
  | [] => true
  | (k, _) :: _ => decide (lo < k)

/-- The canonical form: addresses strictly rising, no entry equal to what an unlisted address reads as. -/
def Memory.wf : Memory → Bool
  | [] => true
  | (k, b) :: m => decide (b ≠ Config.unlistedByte k) && Memory.above k m && Memory.wf m

/-- The 64-bit value of two halves. -/
def joinHalves (hi lo : Word32) : Word := (hi.setWidth 64 <<< 32) ||| lo.setWidth 64

/-- Bits [31:0] of a 64-bit register. -/
def loHalf (v : Word) : Word32 := v.extractLsb' 0 32

/-- Bits [63:32] of a 64-bit register. -/
def hiHalf (v : Word) : Word32 := v.extractLsb' 32 32

/-- A host write of an operand register (20_memory.md rule R61): 8 bytes write all of it; 4 bytes at its offset write bits
[31:0], 4 bytes at offset + 4 write bits [63:32], each half marked written. -/
def OperandReg.store (r : OperandReg) (off width : Nat) (v : Word) : OperandReg :=
  if width = 8 then ⟨v, true, true⟩
  else if off % 8 = 0 then { r with value := joinHalves (hiHalf r.value) (loHalf v), loWritten := true }
  else { r with value := joinHalves (loHalf v) (loHalf r.value), hiWritten := true }

/-- The written-ness of an operand register: both halves written since reset (10_state.md rule R29, 20_memory.md rule R61). -/
def OperandReg.written (r : OperandReg) : Bool := r.loWritten && r.hiWritten

/-- The operand register of a name. -/
def operandReg (s : State) : OperandName → OperandReg
  | .seedIn => s.seedIn
  | .srcAddr => s.srcAddr
  | .lenIn => s.lenIn

/-- `raise CmdError(code)` (60_exceptions.md rule R210): ERR gets the code, BUSY is cleared, nothing else changes. -/
def raiseCmdError (code : ErrCode) (s : State) : State := { s with err := code, busy := false }

/-- The model's faults of an operand read: one while the register is unwritten (60_exceptions.md rule R215). -/
def operandUse (s : State) (r : OperandName) : List UnspecifiedUse :=
  if (operandReg s r).written then [] else [.operand r]

/-- Uses of unspecified values join the model's faults, of which rule R215 says that none is ever cleared (log 4). -/
def noteUses (us : List UnspecifiedUse) (s : State) : State := { s with modelFaults := us ++ s.modelFaults }

/-- Reset (70_reset_and_hazards.md rule R240): every piece of the block's state takes its value of 10_state.md rule R41. What
is not the block's stays: the source memory, the parameters, the host's read values and events to come (log 19), and the
model's faults, which are never cleared (60_exceptions.md rule R215). -/
def resetBlock (s : State) : State :=
  { State.reset with
    mem := s.mem, params := s.params, reads := s.reads, modelFaults := s.modelFaults, pending := s.pending,
    freeCount := s.freeCount }

/-- The source range a command's CMD write opens (70_reset_and_hazards.md rule R252); only WRITE and HASH have one. A WRITE
without a context reads no operand (60_exceptions.md rule R212): while SRC_ADDR or LEN_IN is unwritten it opens none, DESIGN
CHOICE, since the spec gives it no range (log 27). -/
def sourceRange (i : Instr) (s : State) : List (Nat × Nat) :=
  match i with
  | .write =>
    if s.ctx.valid || (s.srcAddr.written && s.lenIn.written) then [(s.srcAddr.value.toNat, s.lenIn.value.toNat)] else []
  | .hash => [(s.srcAddr.value.toNat, s.lenIn.value.toNat)]
  | .init | .finish => []
  | .laneInit | .shortInit | .round | .merge | .converge | .lenAdd | .avalanche => []
  | .stripe | .stripes | .tail8 | .tail4 | .tail1 | .tail => []

/-- The block accepts a CMD write (30_encoding.md rule R70): the command starts, and its source range is open until the host
observes BUSY = 0. -/
def acceptCommand (i : Instr) (s : State) : State :=
  { startCommand s with unobserved := sourceRange i s ++ s.unobserved }

/-- The host observes BUSY = 0: every source range is closed (70_reset_and_hazards.md rule R252). -/
def observeIdle (s : State) : State := { s with unobserved := [] }

/-- A source address in an open range. -/
def inOpenRange (s : State) (a : Nat) : Bool := s.unobserved.any fun r => decide (r.1 ≤ a) && decide (a < r.1 + r.2)

/-- A value the host has read joins its observation (70_reset_and_hazards.md rule R257). -/
def logRead (addr width : Nat) (v : Word) (s : State) : State := { s with reads := ⟨addr, width, v⟩ :: s.reads }

/-- The next event is taken; the rest of the host's program is still to come (log 2). -/
def takeEvent (rest : List Event) (s : State) : State := { s with pending := rest }

/-- `BUF[at .. at + len(d)) <- d` (42_streaming.md rule R162). -/
def bufWrite (buf : Vector Byte 32) (pos : Nat) (d : List Byte) : Vector Byte 32 :=
  Vector.ofFn fun i => if pos ≤ i.val then d.getD (i.val - pos) buf[i] else buf[i]

/-- The bytes of BUF at index not below `len` become unspecified: free values (10_state.md rule R35, log 5). -/
def bufForget (buf : Vector Byte 32) (len n : Nat) : Vector Byte 32 :=
  Vector.ofFn fun i => if i.val < len then buf[i] else Config.freeBufByte n i.val

end Sys2Proof.Machine
end

