-- ==== Sys2Proof/Machine/Operands.lean ====
section
/-! DEFINITION. Every operand form the spec gives: an operand register with its written-ness (30_encoding.md rule R73,
60_exceptions.md rule R215), the source range with its checks (20_memory.md rules R54, R56, R57 and R60), and the
little-endian words of a byte list (00_scope.md rule R12). -/
namespace Sys2Proof.Machine

/-- The number whose base-256 digits are the bytes, the first the least significant. -/
def leNat : List Byte → Nat
  | [] => 0
  | b :: d => b.toNat + 256 * leNat d

/-- `LE64(d, i)` (00_scope.md rule R12). -/
def le64 (d : List Byte) (i : Nat) : Word := BitVec.ofNat 64 (leNat ((d.drop i).take 8))

/-- `LE32(d, i)` (rule R12). -/
def le32 (d : List Byte) (i : Nat) : Word32 := BitVec.ofNat 32 (leNat ((d.drop i).take 4))

/-- A command reads an operand register: its whole value (30_encoding.md rule R73). While it is unwritten the command goes on
with the value held, and the use is recorded as the model's fault of 60_exceptions.md rule R215 (log 3, log 4). -/
def withOperand (r : OperandName) (s : State) (k : Word → State → Result) : Result :=
  k (operandReg s r).value (noteUses (operandUse s r) s)

/-- SRC_ADDR is read, and its range checked, only when the length is not zero (10_state.md rule R29, 20_memory.md rule R54);
the sum is exact. -/
def withRange (n : Word) (s : State) (k : Nat → State → Result) : Result :=
  if n = 0 then k 0 s
  else withOperand .srcAddr s fun a s =>
    if a.toNat + n.toNat > 2 ^ s.params.addrW then .next (raiseCmdError .addrRange s) else k a.toNat s

/-- The first region that holds an address says what the platform has there. -/
def sourceKind : List Region → Nat → Option RegionKind
  | [], _ => none
  | r :: rs, a => if r.base ≤ a ∧ a < r.base + r.size then some r.kind else sourceKind rs a

/-- `SrcAdmit` (20_memory.md rule R56): the platform admits the address for reading. -/
def srcAdmit (p : Params) (a : Nat) : Bool := (sourceKind p.regions a).isSome

/-- A read of the address has side effects (20_memory.md rule R60). -/
def readsWithSideEffects (p : Params) (a : Nat) : Bool := sourceKind p.regions a == some .readSideEffects

/-- Every one of the n addresses from `a` on meets q. -/
def rangeAll (q : Nat → Bool) : Nat → Nat → Bool
  | _, 0 => true
  | a, n + 1 => q a && rangeAll q (a + 1) n

/-- `[ MemRead(a + i, 1) for i in 0 .. n-1 ]` (20_memory.md rule R57). -/
def sourceBytes (m : Memory) : Nat → Nat → List Byte
  | _, 0 => []
  | a, n + 1 => Memory.read m a :: sourceBytes m (a + 1) n

/-- The source reads of a command: refused where the range covers read side effects (70_reset_and_hazards.md rule R253), stuck
where a byte is not admitted (20_memory.md rule R56, 60_exceptions.md rule R217), else the bytes. -/
def withSource (a n : Nat) (s : State) (k : List Byte → Result) : Result :=
  if rangeAll (fun x => !readsWithSideEffects s.params x) a n = false then .refused .sideEffectingSource
  else if rangeAll (srcAdmit s.params) a n = false then .fault .sourceNotAdmitted
  else k (sourceBytes s.mem a n)

end Sys2Proof.Machine
end

