-- ==== Sys2Proof/Machine/Mixing.lean ====
section
/-! DEFINITION. The mixing core (40_mixing_core.md): the constants, its seven pure operations, and their meanings as
instructions over the datapath record (log 1). -/
namespace Sys2Proof.Machine

/-- PRIME64_1 (rule R100). -/
def prime1 : Word := 0x9E3779B185EBCA87
/-- PRIME64_2 (rule R100). -/
def prime2 : Word := 0xC2B2AE3D27D4EB4F
/-- PRIME64_3 (rule R100). -/
def prime3 : Word := 0x165667B19E3779F9
/-- PRIME64_4 (rule R100). -/
def prime4 : Word := 0x85EBCA77C2B2AE63
/-- PRIME64_5 (rule R100). -/
def prime5 : Word := 0x27D4EB2F165667C5

/-- `rotl64(a, r)`, for 0 < r < 64 (00_scope.md rule R11). -/
def rotl64 (a : Word) (r : Nat) : Word := (a <<< r) ||| (a >>> (64 - r))

/-- LANE_INIT (rule R102). -/
def laneInit (seed : Word) : Quad := ⟨seed + prime1 + prime2, seed + prime2, seed, seed - prime1⟩

/-- SHORT_INIT (rule R103). -/
def shortInit (seed : Word) : Word := seed + prime5

/-- ROUND (rule R104). -/
def mixRound (acc lane : Word) : Word := rotl64 (acc + lane * prime2) 31 * prime1

/-- MERGE (rule R105). -/
def mergeLane (acc lane : Word) : Word := (acc ^^^ mixRound 0 lane) * prime1 + prime4

/-- CONVERGE (rule R106): the merge order a1, a2, a3, a4 is part of the definition. -/
def converge (q : Quad) : Word :=
  let acc := rotl64 q.acc1 1 + rotl64 q.acc2 7 + rotl64 q.acc3 12 + rotl64 q.acc4 18
  mergeLane (mergeLane (mergeLane (mergeLane acc q.acc1) q.acc2) q.acc3) q.acc4

/-- LEN_ADD (rule R107). -/
def lenAdd (acc total : Word) : Word := acc + total

/-- `h ^ (h >> s)`, the shift step of AVALANCHE (rule R108). -/
def xorShift (h : Word) (k : Nat) : Word := h ^^^ (h >>> k)

/-- AVALANCHE (rule R108). -/
def avalanche (h : Word) : Word := xorShift (xorShift (xorShift h 33 * prime2) 29 * prime3) 32

/-- A datapath operation leaves its result in the datapath record and touches nothing else: it "reads no block state and
writes none" (40_mixing_core.md). -/
def setDp (s : State) (dp : Datapath) : Result := .next { s with dp := dp }

/-- LANE_INIT: `seed` to the quad. -/
def execLaneInit (s : State) : Result := setDp s { s.dp with quad := laneInit s.dp.seed }

/-- SHORT_INIT: `seed` to the accumulator. -/
def execShortInit (s : State) : Result := setDp s { s.dp with acc := shortInit s.dp.seed }

/-- ROUND: accumulator and `word` to the accumulator. -/
def execRound (s : State) : Result := setDp s { s.dp with acc := mixRound s.dp.acc s.dp.word }

/-- MERGE: accumulator and `word` to the accumulator. -/
def execMerge (s : State) : Result := setDp s { s.dp with acc := mergeLane s.dp.acc s.dp.word }

/-- CONVERGE: the quad to the accumulator. -/
def execConverge (s : State) : Result := setDp s { s.dp with acc := converge s.dp.quad }

/-- LEN_ADD: accumulator and `total` to the accumulator. -/
def execLenAdd (s : State) : Result := setDp s { s.dp with acc := lenAdd s.dp.acc s.dp.total }

/-- AVALANCHE: the accumulator to itself. -/
def execAvalanche (s : State) : Result := setDp s { s.dp with acc := avalanche s.dp.acc }

end Sys2Proof.Machine
end

