-- ==== Sys2Proof/Machine/StripeTail.lean ====
section
/-! DEFINITION. The stripe processor and the tail processor (41_stripe_tail.md): pure operations on byte lists, and their
meanings as instructions over the datapath record (log 1). -/
namespace Sys2Proof.Machine

/-- STRIPE (rule R130): the word at byte offset 8(k-1) feeds lane k. Callers pass 32 bytes. -/
def stripe (q : Quad) (blk : List Byte) : Quad :=
  ⟨mixRound q.acc1 (le64 blk 0), mixRound q.acc2 (le64 blk 8), mixRound q.acc3 (le64 blk 16), mixRound q.acc4 (le64 blk 24)⟩

/-- The first k stripes of a byte list, folded in increasing offset order. -/
def foldStripes : Nat → Quad → List Byte → Quad
  | 0, q, _ => q
  | k + 1, q, d => foldStripes k (stripe q (d.take 32)) (d.drop 32)

/-- STRIPES (rule R131): the loop runs floor(len(d) / 32) times and returns the quad and the position p. -/
def stripes (q : Quad) (d : List Byte) : Quad × Nat := (foldStripes (d.length / 32) q d, 32 * (d.length / 32))

/-- TAIL8 (rule R133). -/
def tail8 (acc w : Word) : Word := rotl64 (acc ^^^ mixRound 0 w) 27 * prime1 + prime4

/-- TAIL4 (rule R134): the word is zero-extended. -/
def tail4 (acc : Word) (w : Word32) : Word := rotl64 (acc ^^^ w.setWidth 64 * prime1) 23 * prime2 + prime3

/-- TAIL1 (rule R135): the byte is zero-extended. -/
def tail1 (acc : Word) (b : Byte) : Word := rotl64 (acc ^^^ b.setWidth 64 * prime5) 11 * prime1

/-- k steps of the 8-byte class. -/
def foldTail8 : Nat → Word → List Byte → Word
  | 0, acc, _ => acc
  | k + 1, acc, t => foldTail8 k (tail8 acc (le64 t 0)) (t.drop 8)

/-- The 4-byte class, at most once, then the 1-byte class. -/
def tailBelow8 (acc : Word) (t : List Byte) : Word :=
  if t.length ≥ 4 then (t.drop 4).foldl tail1 (tail4 acc (le32 t 0)) else t.foldl tail1 acc

/-- TAIL (rule R136): the 8-byte class greedily, then the others over what is left. -/
def tail (acc : Word) (t : List Byte) : Word :=
  tailBelow8 (foldTail8 (t.length / 8) acc t) (t.drop (8 * (t.length / 8)))

/-- STRIPE: the quad and the 32-byte block to the quad. -/
def execStripe (s : State) : Result := setDp s { s.dp with quad := stripe s.dp.quad s.dp.blk.toList }

/-- STRIPES: the quad and the byte list to the quad and the position. -/
def execStripes (s : State) : Result :=
  setDp s { s.dp with quad := (stripes s.dp.quad s.dp.bytes).1, pos := (stripes s.dp.quad s.dp.bytes).2 }

/-- TAIL8: accumulator and `word` to the accumulator. -/
def execTail8 (s : State) : Result := setDp s { s.dp with acc := tail8 s.dp.acc s.dp.word }

/-- TAIL4: accumulator and `word32` to the accumulator. -/
def execTail4 (s : State) : Result := setDp s { s.dp with acc := tail4 s.dp.acc s.dp.word32 }

/-- TAIL1: accumulator and `byte` to the accumulator. -/
def execTail1 (s : State) : Result := setDp s { s.dp with acc := tail1 s.dp.acc s.dp.byte }

/-- TAIL: accumulator and the byte list to the accumulator. -/
def execTail (s : State) : Result := setDp s { s.dp with acc := tail s.dp.acc s.dp.bytes }

end Sys2Proof.Machine
end

