-- ==== Sys2Proof/Machine/Oneshot.lean ====
section
/-! DEFINITION. The one-shot dispatcher (43_oneshot.md): the function XXH64 and the command HASH. -/
namespace Sys2Proof.Machine

/-- XXH64(d, seed) (rule R191). -/
def xxh64 (d : List Byte) (seed : Word) : Word :=
  if d.length < 32 then avalanche (tail (lenAdd (shortInit seed) (BitVec.ofNat 64 d.length)) d)
  else
    let bulk := stripes (laneInit seed) d
    avalanche (tail (lenAdd (converge bulk.1) (BitVec.ofNat 64 d.length)) (d.drop bulk.2))

/-- HASH (rule R190): the context is neither read nor written. -/
def execHash (s : State) : Result :=
  withOperand .seedIn s fun seed s =>
    withOperand .lenIn s fun n s =>
      withRange n s fun a s =>
        withSource a n.toNat s fun d => .next (completeCommand (setDigest (xxh64 d seed) s))

end Sys2Proof.Machine
end

