-- ==== Sys2Proof/Machine/Streaming.lean ====
section
/-! DEFINITION. The streaming state machine (42_streaming.md): INIT, WRITE, FINISH, and the stream state of 10_state.md rule
R36. -/
namespace Sys2Proof.Machine

/-- The stream state of 10_state.md rule R36. -/
inductive StreamState where
  | uninit
  | empty
  | buffering
  | accumulating
  deriving DecidableEq, Repr

/-- `state(ctx)` (rule R36): not stored, a function of the context. -/
def streamState (c : Context) : StreamState :=
  if c.valid = false then .uninit
  else if c.totalLen = 0 then .empty
  else if c.totalLen.toNat < 32 then .buffering
  else .accumulating

/-- BUF[0 .. BUFLEN). -/
def carried (c : Context) : List Byte := c.buf.toList.take c.bufLen.toNat

/-- The context INIT establishes (rule R160): BUF is not written and its bytes become unspecified. -/
def initContext (seed : Word) (n : Nat) (c : Context) : Context :=
  { valid := true, seed := seed, quad := laneInit seed, buf := bufForget c.buf 0 n, bufLen := 0, totalLen := 0 }

/-- INIT (rule R160). -/
def execInit (s : State) : Result :=
  withOperand .seedIn s fun seed s =>
    .next (completeCommand { s with ctx := initContext seed s.freeCount s.ctx, freeCount := s.freeCount + 1 })

/-- WRITE, the chunk still leaves no full stripe (rule R162, BUFLEN + n < 32). -/
def bufferChunk (c : Context) (d : List Byte) : Context :=
  { c with
    totalLen := c.totalLen + BitVec.ofNat 64 d.length
    buf := bufWrite c.buf c.bufLen.toNat d
    bufLen := BitVec.ofNat 6 (c.bufLen.toNat + d.length) }

/-- WRITE completes the buffered stripe when BUFLEN > 0 (rule R162): the context and the chunk position p after it. -/
def completeStripe (c : Context) (d : List Byte) : Context × Nat :=
  if c.bufLen.toNat > 0 then
    let k := 32 - c.bufLen.toNat
    let buf := bufWrite c.buf c.bufLen.toNat (d.take k)
    ({ c with buf := buf, quad := stripe c.quad buf.toList }, k)
  else (c, 0)

/-- WRITE, at least one stripe is folded (rule R162): the buffered stripe, then the chunk's own, then the rest is carried. The
bytes of BUF at index not below the new BUFLEN are unspecified (rule R163). -/
def foldChunk (c : Context) (d : List Byte) (n : Nat) : Context :=
  let head := completeStripe c d
  let bulk := stripes head.1.quad (d.drop head.2)
  let rest := d.drop (head.2 + bulk.2)
  { c with
    totalLen := c.totalLen + BitVec.ofNat 64 d.length
    quad := bulk.1
    buf := bufForget (bufWrite head.1.buf 0 rest) rest.length n
    bufLen := BitVec.ofNat 6 rest.length }

/-- A chunk absorbed into the context (rule R162). -/
def absorb (s : State) (d : List Byte) : State :=
  if s.ctx.bufLen.toNat + d.length < 32 then { s with ctx := bufferChunk s.ctx d }
  else { s with ctx := foldChunk s.ctx d s.freeCount, freeCount := s.freeCount + 1 }

/-- WRITE (rule R162), its checks in the order of 60_exceptions.md rule R220. -/
def execWrite (s : State) : Result :=
  if s.ctx.valid = false then .next (raiseCmdError .noContext s)
  else withOperand .lenIn s fun n s =>
    withRange n s fun a s =>
      if s.ctx.totalLen.toNat + n.toNat > 2 ^ 64 - 1 then .next (raiseCmdError .lenOverflow s)
      else withSource a n.toNat s fun d => .next (completeCommand (absorb s d))

/-- The digest of the stream so far (rule R164): the choice of path is on TOTAL_LEN. -/
def streamDigest (c : Context) : Word :=
  let acc := if c.totalLen.toNat ≥ 32 then converge c.quad else shortInit c.seed
  avalanche (tail (lenAdd acc c.totalLen) (carried c))

/-- FINISH (rule R164): the context is not written. -/
def execFinish (s : State) : Result :=
  if s.ctx.valid = false then .next (raiseCmdError .noContext s)
  else .next (completeCommand (setDigest (streamDigest s.ctx) s))

end Sys2Proof.Machine
end

