-- ==== Sys2Proof/Machine/Dispatch.lean ====
section
/-! DEFINITION. One arm per row of spec/opcode_table.json. -/
namespace Sys2Proof.Machine

def exec (i : Instr) (s : State) : Host.Outcome State Fault Refusal :=
  match i with
  -- commands, 30_encoding.md rule R72
  | .init => Sys2Proof.Machine.execInit s
  | .write => Sys2Proof.Machine.execWrite s
  | .finish => Sys2Proof.Machine.execFinish s
  | .hash => Sys2Proof.Machine.execHash s
  -- datapath operations, 30_encoding.md rule R82
  | .laneInit => Sys2Proof.Machine.execLaneInit s
  | .shortInit => Sys2Proof.Machine.execShortInit s
  | .round => Sys2Proof.Machine.execRound s
  | .merge => Sys2Proof.Machine.execMerge s
  | .converge => Sys2Proof.Machine.execConverge s
  | .lenAdd => Sys2Proof.Machine.execLenAdd s
  | .avalanche => Sys2Proof.Machine.execAvalanche s
  | .stripe => Sys2Proof.Machine.execStripe s
  | .stripes => Sys2Proof.Machine.execStripes s
  | .tail8 => Sys2Proof.Machine.execTail8 s
  | .tail4 => Sys2Proof.Machine.execTail4 s
  | .tail1 => Sys2Proof.Machine.execTail1 s
  | .tail => Sys2Proof.Machine.execTail s

end Sys2Proof.Machine
end

