-- ==== Sys2Proof/Machine/Window.lean ====
section
/-! DEFINITION. The register window (10_state.md rule R22, 20_memory.md rule R61, 30_encoding.md rules R80 and R81), the
host's other events, and the host syntax of rules R85 and R86. -/
namespace Sys2Proof.Machine

/-- Window offsets (10_state.md rule R22). -/
def offCmd : Nat := 0x00
def offStatus : Nat := 0x04
def offSeedIn : Nat := 0x08
def offSrcAddr : Nat := 0x10
def offLenIn : Nat := 0x18
def offDigest : Nat := 0x20
def windowSize : Nat := 64

/-- A legal access shape (20_memory.md rule R61): 4 bytes at a 4-aligned offset, 8 bytes at an 8-aligned offset. -/
def legalAccess (off width : Nat) : Bool := (width == 4 && off % 4 == 0) || (width == 8 && off % 8 == 0)

/-- The window offset of a host address, if it lies in the window (30_encoding.md rule R80). -/
def windowOffset (p : Params) (addr : Nat) : Option Nat :=
  if p.xxhBase ≤ addr ∧ addr < p.xxhBase + windowSize then some (addr - p.xxhBase) else none

/-- The access reads STATUS. -/
def coversStatus (off width : Nat) : Bool := off == offStatus || (off == offCmd && width == 8)

/-- The access reads DIGEST or a half of it. -/
def coversDigest (off : Nat) : Bool := decide (offDigest ≤ off) && decide (off < offDigest + 8)

/-- The eight bytes of the window that hold an offset, as a little-endian value (10_state.md rule R22): CMD reads 0 (rule R23),
STATUS stands above it, offsets 0x28 to 0x3F read 0 (30_encoding.md rule R81). -/
def slotValue (s : State) (off : Nat) : Word :=
  if off < offSeedIn then joinHalves (statusWord s) 0
  else if off < offSrcAddr then s.seedIn.value
  else if off < offLenIn then s.srcAddr.value
  else if off < offDigest then s.lenIn.value
  else if off < offDigest + 8 then s.digest
  else 0

/-- What a host read gives: all eight bytes, or the half at its offset, zero-extended (20_memory.md rule R61). -/
def readValue (s : State) (off width : Nat) : Word :=
  if width = 8 then slotValue s off
  else if off % 8 = 0 then (loHalf (slotValue s off)).setWidth 64
  else (hiHalf (slotValue s off)).setWidth 64

/-- A read that covers STATUS observes BUSY = 0 (70_reset_and_hazards.md rule R252). -/
def afterRead (off width : Nat) (s : State) : State := if coversStatus off width then observeIdle s else s

/-- The model's fault of a read of DIGEST while DIGEST_VALID = 0 (60_exceptions.md rule R216). -/
def digestUse (off : Nat) (s : State) : List UnspecifiedUse := if coversDigest off && !s.digestValid then [.digest] else []

/-- A host read of the window. A read of DIGEST before any result gives the value held and is recorded (log 3, log 4). -/
def hostRead (addr width : Nat) (s : State) : Result :=
  match windowOffset s.params addr with
  | none => .refused .outsideWindow
  | some off =>
    if legalAccess off width = false then .refused .illegalAccess
    else if s.busy && (coversStatus off width || coversDigest off) then .refused .resultWhileBusy
    else .next (logRead addr width (readValue s off width) (afterRead off width (noteUses (digestUse off s) s)))

/-- A CMD write (10_state.md rule R23): refused while BUSY (70_reset_and_hazards.md rule R251), else the command runs at once;
an illegal word raises ILLEGAL_CMD (60_exceptions.md rule R218). -/
def issueCommand (w : Word32) (s : State) : Result :=
  if s.busy then .refused .cmdWhileBusy
  else match decodeCmd w with
    | .ok i => exec i (acceptCommand i s)
    | .error _ => .next (raiseCmdError .illegalCmd (startCommand s))

/-- A host write to the window: CMD takes bits [31:0]; STATUS, DIGEST and the reserved offsets ignore it. -/
def hostWrite (addr width : Nat) (v : Word) (s : State) : Result :=
  match windowOffset s.params addr with
  | none => .refused .outsideWindow
  | some off =>
    if legalAccess off width = false then .refused .illegalAccess
    else if off = offCmd then issueCommand (loHalf v) s
    else if off < offSeedIn then .next s
    else if off < offSrcAddr then .next { s with seedIn := s.seedIn.store off width v }
    else if off < offLenIn then .next { s with srcAddr := s.srcAddr.store off width v }
    else if off < offDigest then .next { s with lenIn := s.lenIn.store off width v }
    else .next s

/-- WAIT (30_encoding.md rule R86): while BUSY is 1 it polls again; the read that sees 0 joins the host's read values
(log 20). -/
def hostWait (s : State) : Result :=
  if s.busy then .next { s with pending := .wait :: s.pending }
  else .next (logRead (s.params.xxhBase + offStatus) 4 ((statusWord s).setWidth 64) (observeIdle s))

/-- A host store of one byte to the source memory (20_memory.md rule R64); refused while the address is in an open source range
(70_reset_and_hazards.md rule R252). -/
def hostStore (a : Nat) (b : Byte) (s : State) : Result :=
  if a < 2 ^ s.params.addrW ∧ sourceKind s.params.regions a = some .memory then
    if inOpenRange s a then .refused .storeIntoRunningSource else .next { s with mem := Memory.write s.mem a b }
  else .refused .storeOutsideMemory

/-- A datapath operation by the byte that carries its label (log 1). -/
def runUop (label : Byte) (s : State) : Result :=
  match decodeLabelByte label with
  | .ok i => exec i s
  | .error _ => .refused .unnamedLabel

/-- What one event does. -/
def runEvent (e : Event) (s : State) : Result :=
  match e with
  | .write addr width v => hostWrite addr width v s
  | .read addr width => hostRead addr width s
  | .wait => hostWait s
  | .store a b => hostStore a b s
  | .reset => .next (resetBlock s)
  | .operands dp => .next { s with dp := dp }
  | .uop label => runUop label s

/-- `W32 off, v` (30_encoding.md rule R85). -/
def w32 (p : Params) (off : Nat) (v : Word32) : Event := .write (p.xxhBase + off) 4 (v.setWidth 64)
/-- `W64 off, v`. -/
def w64 (p : Params) (off : Nat) (v : Word) : Event := .write (p.xxhBase + off) 8 v
/-- `R32 off`. -/
def r32 (p : Params) (off : Nat) : Event := .read (p.xxhBase + off) 4
/-- `R64 off`. -/
def r64 (p : Params) (off : Nat) : Event := .read (p.xxhBase + off) 8
/-- `INIT`. -/
def cmdInit (p : Params) : List Event := [w32 p offCmd 0x00000001]
/-- `WRITE`. -/
def cmdWrite (p : Params) : List Event := [w32 p offCmd 0x00000002]
/-- `FINISH`. -/
def cmdFinish (p : Params) : List Event := [w32 p offCmd 0x00000003]
/-- `HASH`. -/
def cmdHash (p : Params) : List Event := [w32 p offCmd 0x00000004]
/-- `SEED s` (rule R86). -/
def pseudoSeed (p : Params) (seed : Word) : List Event := [w64 p offSeedIn seed]
/-- `SRC a, n`. -/
def pseudoSrc (p : Params) (a n : Word) : List Event := [w64 p offSrcAddr a, w64 p offLenIn n]
/-- `xxh.init s`. -/
def pseudoInit (p : Params) (seed : Word) : List Event := pseudoSeed p seed ++ cmdInit p
/-- `INIT.DEFAULT`. -/
def pseudoInitDefault (p : Params) : List Event := pseudoInit p 0
/-- `xxh.write a, n`. -/
def pseudoWrite (p : Params) (a n : Word) : List Event := pseudoSrc p a n ++ cmdWrite p
/-- `xxh.finish`. -/
def pseudoFinish (p : Params) : List Event := cmdFinish p ++ [.wait, r64 p offDigest]
/-- `xxh.hash a, n, s`. -/
def pseudoHash (p : Params) (a n seed : Word) : List Event :=
  pseudoSeed p seed ++ pseudoSrc p a n ++ cmdHash p ++ [.wait, r64 p offDigest]

end Sys2Proof.Machine
end

