-- ==== Sys2Proof/Machine/Step.lean ====
section
/-! DEFINITION. One step: the next event of the host, or an idle block (10_state.md rules R20 and R21: the program is the
sequence of commands the host writes; log 2). -/
namespace Sys2Proof.Machine

def step (s : State) : Host.Outcome State Fault Refusal :=
  match s.pending with
  | [] => .next s
  | e :: rest => runEvent e (takeEvent rest s)

/-- The state whose next event is an instruction's word: a byte that carries a label is a datapath event, anything else a
4-byte CMD write, which BUSY must admit. -/
def State.withFetchWord (s : State) (nbits w : Nat) : State :=
  if nbits ≤ 8 then { s with pending := .uop (BitVec.ofNat 8 w) :: s.pending }
  else { s with pending := w32 s.params offCmd (BitVec.ofNat 32 w) :: s.pending, busy := false }

end Sys2Proof.Machine
end

