-- ==== Sys2Proof/WellFormed.lean ====
section
/-! DEFINITION. What is well formed: an instruction, the platform's parameters (00_scope.md rule R8), a host access
(20_memory.md rule R61). -/
namespace Sys2Proof

/-- Every row is a fixed word with no operand field (30_encoding.md rules R71, R73 and R82), so there is nothing of an
instruction to check. -/
def Instr.wf : Instr → Bool
  | .init | .write | .finish | .hash => true
  | .laneInit | .shortInit | .round | .merge | .converge | .lenAdd | .avalanche => true
  | .stripe | .stripes | .tail8 | .tail4 | .tail1 | .tail => true

/-- XXH_BASE is 64-byte aligned and ADDR_W is in 1..64 (00_scope.md rule R8). -/
def Machine.Params.wf (p : Machine.Params) : Bool :=
  p.xxhBase % 64 == 0 && decide (1 ≤ p.addrW) && decide (p.addrW ≤ 64)

/-- An event the host may issue or the block may be given: a window access inside the window with a legal shape, a store to
source memory, a label that names an operation. -/
def Machine.Event.wf (p : Machine.Params) : Machine.Event → Bool
  | .write addr width _ | .read addr width =>
    match Machine.windowOffset p addr with
    | some off => Machine.legalAccess off width
    | none => false
  | .store a _ => decide (a < 2 ^ p.addrW) && Machine.sourceKind p.regions a == some .memory
  | .uop label => match decodeLabelByte label with
    | .ok _ => true
    | .error _ => false
  | .wait | .reset | .operands _ => true

end Sys2Proof
end

