-- ==== Sys2Proof/Safety.lean ====
section
/-! DEFINITION. The terms the statements use: runs of several steps, the machine's invariant, what a command leaves alone, when
its operands are ready, what a context holds of a stream, and host programs. -/
namespace Sys2Proof.Machine

/-- k steps, stopping at the first fault or refusal. -/
def steps : Nat → State → Result
  | 0, s => .next s
  | k + 1, s =>
    match step s with
    | .next t => steps k t
    | .fault f => .fault f
    | .refused r => .refused r

/-- The machine's invariant: the source memory in canonical form; no host ever sees BUSY = 1 (70_reset_and_hazards.md rule
R250); legal parameters (00_scope.md rule R8); BUFLEN < 32 (10_state.md rule R31); BUFLEN = TOTAL_LEN mod 32 while the
context is valid (rule R32). -/
abbrev State.Inv (s : State) : Prop :=
  Memory.wf s.mem = true ∧ s.busy = false ∧ s.params.wf = true ∧ s.ctx.bufLen.toNat < 32 ∧
    (s.ctx.valid = true → s.ctx.bufLen.toNat = s.ctx.totalLen.toNat % 32)

/-- Every byte of the source memory reads as before. -/
def SameMemory (s t : State) : Prop := ∀ a, Memory.read t.mem a = Memory.read s.mem a

/-- What no command writes: the operand registers, the source memory, the parameters, the host's read values, open source
ranges and events, and the model's datapath record. -/
def KeepsHostSide (s t : State) : Prop :=
  t.seedIn = s.seedIn ∧ t.srcAddr = s.srcAddr ∧ t.lenIn = s.lenIn ∧ SameMemory s t ∧ t.params = s.params ∧
    t.reads = s.reads ∧ t.unobserved = s.unobserved ∧ t.pending = s.pending ∧ t.dp = s.dp

/-- DIGEST and DIGEST_VALID are unchanged. -/
def KeepsDigest (s t : State) : Prop := t.digest = s.digest ∧ t.digestValid = s.digestValid

/-- The command reached its end: ERR is NONE and BUSY is clear. -/
def Completed (t : State) : Prop := t.err = .none ∧ t.busy = false

/-- The range lies in the source space (20_memory.md rule R54) and each of its bytes is admitted memory without read side
effects (rules R56 and R60). -/
def RangeReady (s : State) (a n : Nat) : Prop :=
  a + n ≤ 2 ^ s.params.addrW ∧ ∀ i < n, sourceKind s.params.regions (a + i) = some .memory

/-- When LEN_IN is not zero, its range from SRC_ADDR on is ready. -/
def ChunkReady (s : State) : Prop :=
  s.lenIn.value ≠ 0 → RangeReady s s.srcAddr.value.toNat s.lenIn.value.toNat

/-- The model's faults of reading LEN_IN, and SRC_ADDR when LEN_IN is not zero, newest first (10_state.md rule R29). -/
def chunkUses (s : State) : List UnspecifiedUse :=
  (if s.lenIn.value = 0 then [] else operandUse s .srcAddr) ++ operandUse s .lenIn

/-- The model's faults of one run of an instruction: an entry for each unwritten operand register it reads (10_state.md rule
R29, 60_exceptions.md rules R215 and R220), newest first. -/
def commandUses : Instr → State → List UnspecifiedUse
  | .init, s => operandUse s .seedIn
  | .write, s => if s.ctx.valid then chunkUses s else []
  | .hash, s => chunkUses s ++ operandUse s .seedIn
  | .finish, _ => []
  | .laneInit, _ | .shortInit, _ | .round, _ | .merge, _ | .converge, _ | .lenAdd, _ | .avalanche, _ => []
  | .stripe, _ | .stripes, _ | .tail8, _ | .tail4, _ | .tail1, _ | .tail, _ => []

/-- The bytes of a range in increasing address order (20_memory.md rule R57). -/
def rangeBytes (m : Memory) (a n : Nat) : List Byte := (List.range n).map fun i => Memory.read m (a + i)

/-- The input of a WRITE or HASH (rule R57). -/
def inputBytes (s : State) : List Byte := rangeBytes s.mem s.srcAddr.value.toNat s.lenIn.value.toNat

/-- The context holds the stream of bytes d under the seed (10_state.md rules R32 and R34): the quad is the fold of the whole
stripes of d, the carry buffer the rest, TOTAL_LEN the length. -/
def StreamHolds (c : Context) (seed : Word) (d : List Byte) : Prop :=
  c.valid = true ∧ c.seed = seed ∧ c.totalLen.toNat = d.length ∧ c.bufLen.toNat = d.length % 32 ∧
    c.quad = (stripes (laneInit seed) d).1 ∧ carried c = d.drop (32 * (d.length / 32))

/-- The context is absent, or the stream of some bytes under some seed. -/
def AbsentOrStream (c : Context) : Prop := c.valid = true → ∃ seed d, StreamHolds c seed d

/-- Two states that differ at most in the bytes of BUF at index not below BUFLEN (10_state.md rule R35). -/
def SameButTail (s t : State) : Prop :=
  t = { s with ctx := { s.ctx with buf := t.ctx.buf } } ∧ carried t.ctx = carried s.ctx

/-- Two results that agree: related next states, or the same fault or refusal. -/
def ResultsAgree (R : State → State → Prop) : Result → Result → Prop
  | .next s, .next t => R s t
  | .fault f, .fault g => f = g
  | .refused r, .refused q => r = q
  | _, _ => False

/-- The next event is a host write of CMD that decodes to the command i. -/
def NextCommand (s : State) (i : Instr) : Prop :=
  ∃ addr width v rest, s.pending = .write addr width v :: rest ∧ windowOffset s.params addr = some offCmd ∧
    decodeCmd (loHalf v) = .ok i

/-- The next event is a reset. -/
def NextReset (s : State) : Prop := ∃ rest, s.pending = .reset :: rest

/-- The window offset of an operand register (10_state.md rule R22). -/
def operandOffset : OperandName → Nat
  | .seedIn => offSeedIn
  | .srcAddr => offSrcAddr
  | .lenIn => offLenIn

/-- One call of a host to a stream in progress: WRITE a chunk, read the digest so far, or hash something else in between. -/
inductive HostCall where
  | chunk (a n : Word)
  | query
  | oneshot (a n seed : Word)
  deriving DecidableEq, Repr

/-- The register accesses of a call (30_encoding.md rule R86). -/
def HostCall.events (p : Params) : HostCall → List Event
  | .chunk a n => pseudoWrite p a n
  | .query => pseudoFinish p
  | .oneshot a n seed => pseudoHash p a n seed

/-- The bytes a call adds to the stream. -/
def HostCall.bytes (m : Memory) : HostCall → List Byte
  | .chunk a n => rangeBytes m a.toNat n.toNat
  | .query => []
  | .oneshot _ _ _ => []

/-- The source range a call reads is ready. -/
def HostCall.ready (s : State) : HostCall → Prop
  | .chunk a n => n ≠ 0 → RangeReady s a.toNat n.toNat
  | .query => True
  | .oneshot a n _ => n ≠ 0 → RangeReady s a.toNat n.toNat

/-- A whole stream: `xxh.init seed`, the calls, `xxh.finish`. -/
def streamProgram (p : Params) (seed : Word) (calls : List HostCall) : List Event :=
  pseudoInit p seed ++ calls.flatMap (HostCall.events p) ++ pseudoFinish p

/-- The bytes the calls add to the stream. -/
def streamBytes (m : Memory) (calls : List HostCall) : List Byte := calls.flatMap (HostCall.bytes m)

end Sys2Proof.Machine
end

