-- ==== Sys2Proof/Certificates/Slice0/Obligations.lean ====
section
/-! DEFINITION. The statements for the provers. A docstring names the rule of spec/ a statement formalises, or the log entry
it rests on. -/
open Sys2Proof Sys2Proof.Machine

-- Reset, invariant, whole-machine rules

/-- 10_state.md rule R41: every piece of state the table gives a value; CMD reads 0; WRITE and FINISH fail before they read the
context. A command's read of an unwritten operand and a host read of DIGEST are the model's faults, recorded as the machine goes
on: the model's choice (log 4). No value held at reset is stated. -/
def Obligations.ResetState : Prop :=
  State.reset.busy = false ∧ State.reset.ctx.valid = false ∧ State.reset.digestValid = false ∧
  State.reset.err = .none ∧ statusWord State.reset = 0 ∧
  (∀ r, (operandReg State.reset r).loWritten = false ∧ (operandReg State.reset r).hiWritten = false) ∧
  runEvent (r32 State.reset.params offCmd) State.reset =
    .next (logRead (State.reset.params.xxhBase + offCmd) 4 0 State.reset) ∧
  State.reset.modelFaults = [] ∧
  (∃ v, runEvent (r64 State.reset.params offDigest) State.reset =
    .next (logRead (State.reset.params.xxhBase + offDigest) 8 v { State.reset with modelFaults := [.digest] })) ∧
  (∃ t, exec .init State.reset = .next t ∧ t.ctx.valid = true ∧ t.modelFaults = [.operand .seedIn]) ∧
  (∃ t, exec .hash State.reset = .next t ∧ .operand .seedIn ∈ t.modelFaults ∧ .operand .lenIn ∈ t.modelFaults) ∧
  exec .write State.reset = .next { State.reset with err := .noContext } ∧
  exec .finish State.reset = .next { State.reset with err := .noContext }

/-- 70_reset_and_hazards.md rule R240: reset, from any state and at any point of the host's program, leaves the block as
10_state.md rule R41 says. That the source memory, the parameters and the host's own lists survive is the model's choice
(log 19), and so is the record of the model's faults, which no reset clears (log 4). -/
def Obligations.ResetEventResetsBlock : Prop :=
  ∀ s rest, s.pending = .reset :: rest → ∃ t, step s = .next t ∧
    t.busy = false ∧ t.ctx.valid = false ∧ streamState t.ctx = .uninit ∧ t.digestValid = false ∧ t.err = .none ∧
    (∀ r, (operandReg t r).loWritten = false ∧ (operandReg t r).hiWritten = false) ∧
    SameMemory s t ∧ t.params = s.params ∧ t.reads = s.reads ∧ t.modelFaults = s.modelFaults ∧ t.pending = rest

/-- The two invariants, of the machine and of its context, hold at reset. -/
def Obligations.ResetMeetsInvariant : Prop := State.reset.Inv ∧ AbsentOrStream State.reset.ctx

/-- Every step keeps the invariant: canonical memory, BUSY never seen (rule R250), legal parameters (rule R8), the carry-buffer
bound and the buffer-length law (10_state.md rules R31 and R32). -/
def Obligations.StepKeepsInvariant : Prop := ∀ s t, s.Inv → step s = .next t → t.Inv

/-- 10_state.md rule R33: only INIT lowers TOTAL_LEN, to 0; WRITE raises it by LEN_IN, or leaves it alone when it fails. A
reset makes it unspecified (rule R41). -/
def Obligations.TotalLenNeverFalls : Prop :=
  (∀ s t, s.ctx.valid = true → step s = .next t → ¬ NextCommand s .init → ¬ NextReset s →
    s.ctx.totalLen.toNat ≤ t.ctx.totalLen.toNat) ∧
  (∀ s t, exec .init s = .next t → t.ctx.totalLen = 0) ∧
  (∀ s t, exec .write s = .next t →
    (t.err = .none → t.ctx.totalLen.toNat = s.ctx.totalLen.toNat + s.lenIn.value.toNat) ∧
    (t.err ≠ .none → t.ctx.totalLen = s.ctx.totalLen))

/-- 10_state.md rule R40: CTX_VALID is set by INIT and cleared only by reset; DIGEST_VALID is set by FINISH or HASH and
cleared only by reset. -/
def Obligations.ValidBitsHaveTheirWriters : Prop :=
  ∀ s t, step s = .next t →
    (s.ctx.valid = false → t.ctx.valid = true → NextCommand s .init) ∧
    (s.ctx.valid = true → t.ctx.valid = false → NextReset s) ∧
    (s.digestValid = false → t.digestValid = true → NextCommand s .finish ∨ NextCommand s .hash) ∧
    (s.digestValid = true → t.digestValid = false → NextReset s)

/-- 10_state.md rule R28: only a FINISH or HASH that completes without error writes DIGEST; a reset makes it unspecified. -/
def Obligations.OnlyFinishAndHashWriteDigest : Prop :=
  ∀ s t, step s = .next t → t.digest ≠ s.digest →
    NextReset s ∨ ((NextCommand s .finish ∨ NextCommand s .hash) ∧ t.err = .none ∧ t.digestValid = true)

/-- 20_memory.md rule R55: the block never writes memory. No instruction changes a byte, and no step does but one that takes
a host's store, which changes the byte it stores. That a reset leaves the source memory alone too is the model's choice
(log 19). -/
def Obligations.BlockNeverWritesMemory : Prop :=
  (∀ i s t, exec i s = .next t → SameMemory s t) ∧
  (∀ s t, step s = .next t → (∀ a b rest, s.pending ≠ .store a b :: rest) → SameMemory s t)

/-- No step changes the parameters of 00_scope.md rule R8. -/
def Obligations.StepKeepsParams : Prop := ∀ s t, step s = .next t → t.params = s.params

/-- 10_state.md rule R35: no observation depends on the bytes of BUF at index not below BUFLEN. Two states that differ only
there answer every step alike, and their next states differ again only there. -/
def Obligations.BufferTailIsUnobservable : Prop :=
  ∀ s t, SameButTail s t → ResultsAgree SameButTail (step s) (step t)

/-- 20_memory.md rule R53: a WRITE or HASH depends on no byte outside its range. -/
def Obligations.CommandsReadOnlyTheirRange : Prop :=
  ∀ s m t, (∀ i < s.lenIn.value.toNat,
      Memory.read m (s.srcAddr.value.toNat + i) = Memory.read s.mem (s.srcAddr.value.toNat + i)) →
    (exec .hash s = .next t → exec .hash { s with mem := m } = .next { t with mem := m }) ∧
    (exec .write s = .next t → exec .write { s with mem := m } = .next { t with mem := m })

-- Encoding

/-- 30_encoding.md rule R74: decode on every 32-bit value. -/
def Obligations.CommandWordsDecodeExactly : Prop :=
  ∀ w : Word32,
    (decodeCmd w = .ok .init ↔ w = 0x00000001) ∧ (decodeCmd w = .ok .write ↔ w = 0x00000002) ∧
    (decodeCmd w = .ok .finish ↔ w = 0x00000003) ∧ (decodeCmd w = .ok .hash ↔ w = 0x00000004) ∧
    ((∃ e, decodeCmd w = .error e) ↔
      w ≠ 0x00000001 ∧ w ≠ 0x00000002 ∧ w ≠ 0x00000003 ∧ w ≠ 0x00000004)

/-- Decode and encode agree for every well-formed instruction of all rows (30_encoding.md rules R72 and R82): the bytes of
its encoding decode to it, and no other bytes do. That a label stands in one byte is the model's choice (log 26). -/
def Obligations.DecodeInvertsEncode : Prop :=
  ∀ i : Instr, i.wf = true → ∀ bs, decode bs = .ok i ↔ bs = encodedBytes (encode i)

/-- Words and labels of 30_encoding.md rules R72 and R82 written out, and illegal ones (rule R75). -/
def Obligations.SampleWordsDecode : Prop :=
  decodeTableWord 32 0b00000000000000000000000000000010 = some .write ∧
  decodeTableWord 32 0b00000000000000000000000000000100 = some .hash ∧
  decodeTableWord 8 0b00001 = some .laneInit ∧ decodeTableWord 8 0b01001 = some .stripes ∧
  decodeTableWord 8 0b01101 = some .tail ∧ decodeTableWord 32 0x00000000 = none ∧
  decodeTableWord 32 0x00000101 = none ∧ decodeTableWord 32 0x000000FF = none ∧ decodeTableWord 8 0b01110 = none

-- The step

/-- A step runs the decoded command: a CMD write that decodes to i is exec of i, with the event taken, BUSY set (rule R40) and
the command's source range open (70_reset_and_hazards.md rule R252). The event list is the model's (log 2). -/
def Obligations.StepRunsWrittenCommand : Prop :=
  ∀ s rest width v i, s.pending = .write (s.params.xxhBase + offCmd) width v :: rest → (width = 4 ∨ width = 8) →
    s.busy = false → decodeCmd (loHalf v) = .ok i →
    step s = exec i { s with pending := rest, busy := true, unobserved := sourceRange i s ++ s.unobserved }

/-- A step runs the datapath operation a label names, with the event taken. The event is the model's (log 1). -/
def Obligations.StepRunsLabelledOperation : Prop :=
  ∀ s rest label i, s.pending = .uop label :: rest → decodeLabelByte label = .ok i →
    step s = exec i { s with pending := rest }

/-- A word laid where the step fetches runs as the instruction it decodes to (log 2, log 26). -/
def Obligations.FetchWordRunsDecodedInstruction : Prop :=
  ∀ s w i, (w < 2 ^ 32 → decodeTableWord 32 w = some i →
      step (s.withFetchWord 32 w) = exec i { s with busy := true, unobserved := sourceRange i s ++ s.unobserved }) ∧
    (w < 2 ^ 8 → decodeTableWord 8 w = some i → step (s.withFetchWord 8 w) = exec i s)

/-- 30_encoding.md rule R75: an illegal CMD word completes at once with ERR = ILLEGAL_CMD and changes nothing else. -/
def Obligations.IllegalWordOnlySetsErr : Prop :=
  ∀ s rest width v e, s.pending = .write (s.params.xxhBase + offCmd) width v :: rest → (width = 4 ∨ width = 8) →
    s.busy = false → decodeCmd (loHalf v) = .error e →
    step s = .next { s with pending := rest, err := .illegalCmd }

/-- 70_reset_and_hazards.md rule R251: a CMD write while BUSY = 1 is refused; an operand register may be written then. -/
def Obligations.CommandWhileBusyRefused : Prop :=
  ∀ s rest v, s.busy = true →
    (∀ width, width = 4 ∨ width = 8 → s.pending = .write (s.params.xxhBase + offCmd) width v :: rest →
      step s = .refused .cmdWhileBusy) ∧
    (∀ r, s.pending = w64 s.params (operandOffset r) v :: rest →
      ∃ t, step s = .next t ∧ operandReg t r = ⟨v, true, true⟩ ∧ t.busy = true)

-- Commands

/-- 42_streaming.md rule R160 and 70_reset_and_hazards.md rule R241: INIT establishes an Empty context under the seed SEED_IN
holds, and leaves DIGEST, DIGEST_VALID and the operand registers alone. That it goes on with the value held while SEED_IN is
unwritten, and records that, is the model's choice (log 4). -/
def Obligations.InitEstablishesContext : Prop :=
  ∀ s, ∃ t, exec .init s = .next t ∧ t.ctx.valid = true ∧ t.ctx.seed = s.seedIn.value ∧
    t.ctx.quad = ⟨s.seedIn.value + prime1 + prime2, s.seedIn.value + prime2, s.seedIn.value, s.seedIn.value - prime1⟩ ∧
    t.ctx.bufLen = 0 ∧ t.ctx.totalLen = 0 ∧ streamState t.ctx = .empty ∧ Completed t ∧ KeepsDigest s t ∧
    KeepsHostSide s t ∧ t.modelFaults = (if s.seedIn.written then [] else [.operand .seedIn]) ++ s.modelFaults

/-- 60_exceptions.md rules R215 and R220 over 10_state.md rule R29: a command that answers records one model fault for each
unwritten operand register it reads, in the order of the pseudocode and after the NO_CONTEXT check, and no other; no step
clears one. That the machine goes on after one is the model's choice (log 4). -/
def Obligations.UnspecifiedUsesAreRecorded : Prop :=
  (∀ s t, exec .init s = .next t → t.modelFaults = operandUse s .seedIn ++ s.modelFaults) ∧
  (∀ s t, exec .write s = .next t → s.ctx.valid = false → t.modelFaults = s.modelFaults) ∧
  (∀ s t, exec .write s = .next t → s.ctx.valid = true → t.modelFaults =
    (if s.lenIn.value = 0 then [] else operandUse s .srcAddr) ++ operandUse s .lenIn ++ s.modelFaults) ∧
  (∀ s t, exec .finish s = .next t → t.modelFaults = s.modelFaults) ∧
  (∀ s t, exec .hash s = .next t → t.modelFaults =
    (if s.lenIn.value = 0 then [] else operandUse s .srcAddr) ++ operandUse s .lenIn ++ operandUse s .seedIn ++
      s.modelFaults) ∧
  (∀ s t, step s = .next t → ∃ us, t.modelFaults = us ++ s.modelFaults)

/-- 60_exceptions.md rule R212: WRITE and FINISH without a context raise NO_CONTEXT whatever the operands; HASH never does. -/
def Obligations.NoContextError : Prop :=
  ∀ s, (s.ctx.valid = false → exec .write s = .next { s with err := .noContext, busy := false } ∧
      exec .finish s = .next { s with err := .noContext, busy := false }) ∧
    (∀ t, exec .hash s = .next t → t.err ≠ .noContext)

/-- 60_exceptions.md rule R213: WRITE past 2^64 - 1 bytes raises LEN_OVERFLOW with the context unchanged, before any source
byte is read; HASH never does. Model faults of the operand reads before it are recorded (log 4). -/
def Obligations.LenOverflowError : Prop :=
  ∀ s, (s.ctx.valid = true →
      (s.lenIn.value ≠ 0 → s.srcAddr.value.toNat + s.lenIn.value.toNat ≤ 2 ^ s.params.addrW) →
      s.ctx.totalLen.toNat + s.lenIn.value.toNat > 2 ^ 64 - 1 →
      exec .write s = .next { s with
        err := .lenOverflow, busy := false, modelFaults := commandUses .write s ++ s.modelFaults }) ∧
    (∀ t, exec .hash s = .next t → t.err ≠ .lenOverflow)

/-- 60_exceptions.md rule R214: WRITE or HASH whose range passes the top of the source space raises ADDR_RANGE, read no byte.
Model faults of the operand reads before it are recorded (log 4). -/
def Obligations.AddrRangeError : Prop :=
  ∀ s, s.lenIn.value ≠ 0 → s.srcAddr.value.toNat + s.lenIn.value.toNat > 2 ^ s.params.addrW →
    (s.ctx.valid = true → exec .write s = .next { s with
      err := .addrRange, busy := false, modelFaults := commandUses .write s ++ s.modelFaults }) ∧
    exec .hash s = .next { s with
      err := .addrRange, busy := false, modelFaults := commandUses .hash s ++ s.modelFaults }

/-- 60_exceptions.md rule R210: a command that ends with an error leaves the state exactly as before but for ERR (and BUSY,
which is clear); the model's own record of unwritten operands it read grows by them (log 4). -/
def Obligations.FailedCommandIsPrecise : Prop :=
  ∀ i s t, i = .init ∨ i = .write ∨ i = .finish ∨ i = .hash → exec i s = .next t → t.err ≠ .none →
    t = { s with err := t.err, busy := false, modelFaults := commandUses i s ++ s.modelFaults }

/-- 20_memory.md rule R56 and 70_reset_and_hazards.md rule R253: a range that passes the earlier checks is refused when it
covers a read side effect, and leaves the command stuck when some byte is not admitted. Refusal first is the model's choice
(log 8). -/
def Obligations.UnreadableRangeStops : Prop :=
  ∀ s, s.srcAddr.value.toNat + s.lenIn.value.toNat ≤ 2 ^ s.params.addrW →
    ((∃ i < s.lenIn.value.toNat,
        sourceKind s.params.regions (s.srcAddr.value.toNat + i) = some .readSideEffects) →
      (s.ctx.valid = true → s.ctx.totalLen.toNat + s.lenIn.value.toNat ≤ 2 ^ 64 - 1 →
        exec .write s = .refused .sideEffectingSource) ∧
      exec .hash s = .refused .sideEffectingSource) ∧
    ((∀ i < s.lenIn.value.toNat,
        sourceKind s.params.regions (s.srcAddr.value.toNat + i) ≠ some .readSideEffects) →
      (∃ i < s.lenIn.value.toNat, sourceKind s.params.regions (s.srcAddr.value.toNat + i) = none) →
      (s.ctx.valid = true → s.ctx.totalLen.toNat + s.lenIn.value.toNat ≤ 2 ^ 64 - 1 →
        exec .write s = .fault .sourceNotAdmitted) ∧
      exec .hash s = .fault .sourceNotAdmitted)

/-- 42_streaming.md rule R162, its n = 0 corner case: WRITE of an empty chunk reads no SRC_ADDR and leaves the context
unchanged. The bound is the invariant of 10_state.md rule R31. -/
def Obligations.EmptyWriteIsNoOp : Prop :=
  ∀ s, s.ctx.valid = true → s.ctx.bufLen.toNat < 32 → s.lenIn.value = 0 →
    exec .write s = .next { s with
      err := .none, busy := false, modelFaults := operandUse s .lenIn ++ s.modelFaults }

/-- 42_streaming.md rule R162: WRITE completes and folds the carried bytes followed by the chunk, every whole stripe into the
quad, the rest into the carry buffer; TOTAL_LEN grows by the chunk's length. Everything else is unchanged. -/
def Obligations.WriteAbsorbsChunk : Prop :=
  ∀ s, s.ctx.valid = true → s.ctx.bufLen.toNat < 32 → ChunkReady s →
    s.ctx.totalLen.toNat + s.lenIn.value.toNat ≤ 2 ^ 64 - 1 →
    ∃ t, exec .write s = .next t ∧
      t.ctx.totalLen.toNat = s.ctx.totalLen.toNat + s.lenIn.value.toNat ∧
      t.ctx.quad = (stripes s.ctx.quad (carried s.ctx ++ inputBytes s)).1 ∧
      carried t.ctx = (carried s.ctx ++ inputBytes s).drop
        (32 * ((carried s.ctx ++ inputBytes s).length / 32)) ∧
      t.ctx.bufLen.toNat = (s.ctx.bufLen.toNat + s.lenIn.value.toNat) % 32 ∧
      t.ctx.valid = true ∧ t.ctx.seed = s.ctx.seed ∧ Completed t ∧ KeepsDigest s t ∧ KeepsHostSide s t ∧
      t.modelFaults = commandUses .write s ++ s.modelFaults

/-- The frame of WRITE over every state it answers in, errors included (42_streaming.md rule R162): CTX_VALID, CTX_SEED,
DIGEST, DIGEST_VALID, the operand registers and every byte of memory are unchanged. -/
def Obligations.WriteFrame : Prop :=
  ∀ s t, exec .write s = .next t →
    t.ctx.valid = s.ctx.valid ∧ t.ctx.seed = s.ctx.seed ∧ KeepsDigest s t ∧ KeepsHostSide s t ∧ t.busy = false

/-- 42_streaming.md rule R164: FINISH with a context writes DIGEST and DIGEST_VALID, completes, and changes neither the context
nor anything else; without one it raises NO_CONTEXT and leaves DIGEST and DIGEST_VALID alone. -/
def Obligations.FinishWritesDigest : Prop :=
  ∀ s, (s.ctx.valid = true → ∃ t, exec .finish s = .next t ∧
      t.digest = (if s.ctx.totalLen.toNat ≥ 32 then
          avalanche (tail (converge s.ctx.quad + s.ctx.totalLen) (s.ctx.buf.toList.take s.ctx.bufLen.toNat))
        else avalanche (tail (s.ctx.seed + prime5 + s.ctx.totalLen) (s.ctx.buf.toList.take s.ctx.bufLen.toNat))) ∧
      t.digestValid = true ∧ Completed t ∧ t.ctx = s.ctx ∧ KeepsHostSide s t ∧ t.freeCount = s.freeCount ∧
      t.modelFaults = s.modelFaults) ∧
    (s.ctx.valid = false → ∃ t, exec .finish s = .next t ∧ t.err = .noContext ∧ KeepsDigest s t ∧ t.ctx = s.ctx)

/-- 43_oneshot.md rules R190 and R193: HASH completes with DIGEST = XXH64 of the range's bytes and changes only DIGEST,
DIGEST_VALID and ERR (and BUSY, which is clear), whether or not a context is valid; the model's own record grows by the
unwritten operands it reads (log 4). -/
def Obligations.HashWritesDigest : Prop :=
  ∀ s, ChunkReady s →
    exec .hash s = .next { s with
      digest := xxh64 (inputBytes s) s.seedIn.value, digestValid := true, err := .none, busy := false,
      modelFaults := commandUses .hash s ++ s.modelFaults }

/-- The frame of HASH over every state it answers in, errors included (43_oneshot.md rule R193). -/
def Obligations.HashFrame : Prop :=
  ∀ s t, exec .hash s = .next t → t.ctx = s.ctx ∧ KeepsHostSide s t ∧ t.busy = false ∧ t.freeCount = s.freeCount ∧
    (t.err ≠ .none → KeepsDigest s t)

/-- 43_oneshot.md rules R191 and R192: the choice of path depends only on the length, short exactly below 32. -/
def Obligations.OneShotPathByLength : Prop :=
  ∀ d seed, (d.length < 32 → xxh64 d seed = avalanche (tail (seed + prime5 + BitVec.ofNat 64 d.length) d)) ∧
    (32 ≤ d.length → xxh64 d seed = avalanche (tail
      (converge (stripes (laneInit seed) d).1 + BitVec.ofNat 64 d.length) (d.drop (32 * (d.length / 32)))))

/-- 10_state.md rule R37: the transitions of the stream state. -/
def Obligations.StreamStateTransitions : Prop :=
  (∀ s t, exec .init s = .next t → streamState t.ctx = .empty) ∧
  (∀ s t, exec .write s = .next t → t.err = .none →
    (streamState s.ctx = .empty → s.lenIn.value = 0 → streamState t.ctx = .empty) ∧
    (streamState s.ctx = .empty → 1 ≤ s.lenIn.value.toNat → s.lenIn.value.toNat ≤ 31 →
      streamState t.ctx = .buffering) ∧
    (streamState s.ctx = .empty → 32 ≤ s.lenIn.value.toNat → streamState t.ctx = .accumulating) ∧
    (streamState s.ctx = .buffering → s.ctx.totalLen.toNat + s.lenIn.value.toNat < 32 →
      streamState t.ctx = .buffering) ∧
    (streamState s.ctx = .buffering → 32 ≤ s.ctx.totalLen.toNat + s.lenIn.value.toNat →
      streamState t.ctx = .accumulating) ∧
    (streamState s.ctx = .accumulating → streamState t.ctx = .accumulating)) ∧
  (∀ s t, exec .write s = .next t → t.err ≠ .none → streamState t.ctx = streamState s.ctx) ∧
  (∀ s t, exec .finish s = .next t ∨ exec .hash s = .next t → streamState t.ctx = streamState s.ctx) ∧
  (∀ s t, streamState s.ctx = .uninit → exec .write s = .next t ∨ exec .finish s = .next t →
    streamState t.ctx = .uninit ∧ t.err = .noContext)

-- Streams

/-- 10_state.md rules R32 and R34: WRITE appends its chunk to the stream the context holds, whatever the chunking was. -/
def Obligations.WriteExtendsStream : Prop :=
  ∀ s seed d, StreamHolds s.ctx seed d → ChunkReady s → d.length + s.lenIn.value.toNat < 2 ^ 64 →
    ∃ t, exec .write s = .next t ∧ StreamHolds t.ctx seed (d ++ inputBytes s)

/-- 42_streaming.md rule R164 over 10_state.md rule R34: FINISH gives XXH64 of the stream the context holds. -/
def Obligations.FinishOfStreamIsXxh64 : Prop :=
  ∀ s seed d, StreamHolds s.ctx seed d → ∃ t, exec .finish s = .next t ∧ t.digest = xxh64 d seed ∧ t.ctx = s.ctx

/-- 42_streaming.md rules R165 and R166, 43_oneshot.md rule R194: a host program that runs `xxh.init seed`, any calls (chunks of
any sizes, digest reads and one-shot hashes in between) and `xxh.finish` completes, and reads XXH64 of all the chunks' bytes
in order. The last read of STATUS gives CTX_VALID and DIGEST_VALID set and ERR clear. Such a program uses no unspecified value. -/
def Obligations.StreamedDigestEqualsOneShot : Prop :=
  ∀ s seed calls, s.busy = false → s.pending = streamProgram s.params seed calls →
    (∀ c ∈ calls, HostCall.ready s c) → (streamBytes s.mem calls).length < 2 ^ 64 →
    ∃ t, steps s.pending.length s = .next t ∧ t.pending = [] ∧ t.digest = xxh64 (streamBytes s.mem calls) seed ∧
      t.reads.head? = some ⟨s.params.xxhBase + offDigest, 8, xxh64 (streamBytes s.mem calls) seed⟩ ∧
      statusWord t = 0x00000006 ∧ t.modelFaults = s.modelFaults

/-- 30_encoding.md rule R86 and 43_oneshot.md rule R190: the pseudo-instruction `xxh.hash a, n, s` runs from any state that is
not busy and reads XXH64 of its range; the context is left as it was, and no unspecified value is used. -/
def Obligations.HashPseudoReadsXxh64 : Prop :=
  ∀ s a n seed, s.busy = false → s.pending = pseudoHash s.params a n seed →
    (n ≠ 0 → RangeReady s a.toNat n.toNat) →
    ∃ t, steps s.pending.length s = .next t ∧ t.pending = [] ∧ t.ctx = s.ctx ∧ t.modelFaults = s.modelFaults ∧
      t.reads.head? = some ⟨s.params.xxhBase + offDigest, 8, xxh64 (rangeBytes s.mem a.toNat n.toNat) seed⟩

-- The register window

/-- 10_state.md rule R24 and 60_exceptions.md rule R211: the fields of STATUS, bit by bit, and the code of each error; a host
read of STATUS while BUSY = 0, and WAIT (30_encoding.md rule R86), give that word. That WAIT is one event is the model's choice
(log 20), and so is the list of open ranges that both close (log 23). -/
def Obligations.StatusLayout : Prop :=
  (∀ s, (statusWord s).getLsbD 0 = s.busy ∧ (statusWord s).getLsbD 1 = s.ctx.valid ∧
    (statusWord s).getLsbD 2 = s.digestValid ∧ (statusWord s).getLsbD 3 = false ∧
    (statusWord s).extractLsb' 4 4 = errCode s.err ∧ (statusWord s).extractLsb' 8 24 = 0) ∧
  (∀ s, s.busy = false →
    runEvent (r32 s.params offStatus) s =
      .next (logRead (s.params.xxhBase + offStatus) 4 ((statusWord s).setWidth 64) (observeIdle s)) ∧
    runEvent .wait s =
      .next (logRead (s.params.xxhBase + offStatus) 4 ((statusWord s).setWidth 64) (observeIdle s))) ∧
  errCode .none = 0 ∧ errCode .illegalCmd = 1 ∧ errCode .noContext = 2 ∧ errCode .lenOverflow = 3 ∧
  errCode .addrRange = 4

/-- 10_state.md rules R25, R26 and R27: an 8-byte host write of an operand register makes it written and is read back
unchanged, every other register keeping its value. -/
def Obligations.OperandReadsBackLastWrite : Prop :=
  ∀ s r v, ∃ t, runEvent (w64 s.params (operandOffset r) v) s = .next t ∧ operandReg t r = ⟨v, true, true⟩ ∧
    (∀ q, q ≠ r → operandReg t q = operandReg s q) ∧ KeepsDigest s t ∧ t.ctx = s.ctx ∧ t.err = s.err ∧ SameMemory s t ∧
    runEvent (r64 s.params (operandOffset r)) t =
      .next (logRead (s.params.xxhBase + operandOffset r) 8 v t)

/-- 20_memory.md rule R61: a 32-bit half-write changes only its half and marks it written, and a 4-byte read gives the half at
its offset. What a half that nothing has written holds is the model's choice (log 13). -/
def Obligations.HalfWriteChangesItsHalf : Prop :=
  ∀ s r (v : Word32),
    (∃ t, runEvent (w32 s.params (operandOffset r) v) s = .next t ∧
      loHalf (operandReg t r).value = v ∧
      hiHalf (operandReg t r).value = hiHalf (operandReg s r).value ∧
      (operandReg t r).loWritten = true ∧ (operandReg t r).hiWritten = (operandReg s r).hiWritten ∧
      (∀ q, q ≠ r → operandReg t q = operandReg s q)) ∧
    (∃ t, runEvent (w32 s.params (operandOffset r + 4) v) s = .next t ∧
      hiHalf (operandReg t r).value = v ∧
      loHalf (operandReg t r).value = loHalf (operandReg s r).value ∧
      (operandReg t r).hiWritten = true ∧ (operandReg t r).loWritten = (operandReg s r).loWritten ∧
      (∀ q, q ≠ r → operandReg t q = operandReg s q)) ∧
    ((operandReg s r).written = true ↔
      (operandReg s r).loWritten = true ∧ (operandReg s r).hiWritten = true) ∧
    runEvent (r32 s.params (operandOffset r)) s = .next
      (logRead (s.params.xxhBase + operandOffset r) 4 ((loHalf (operandReg s r).value).setWidth 64) s) ∧
    runEvent (r32 s.params (operandOffset r + 4)) s = .next
      (logRead (s.params.xxhBase + (operandOffset r + 4)) 4 ((hiHalf (operandReg s r).value).setWidth 64) s)

/-- 10_state.md rule R22 and 30_encoding.md rule R81: legal writes to STATUS, DIGEST and the reserved offsets are ignored; CMD
and the reserved offsets read 0. -/
def Obligations.ReadOnlyAndReservedOffsets : Prop :=
  ∀ s off width, (width = 4 ∧ off % 4 = 0) ∨ (width = 8 ∧ off % 8 = 0) → off < windowSize →
    (off = offStatus ∨ offDigest ≤ off → ∀ v, runEvent (.write (s.params.xxhBase + off) width v) s = .next s) ∧
    (0x28 ≤ off ∨ (off = offCmd ∧ width = 4) → runEvent (.read (s.params.xxhBase + off) width) s =
      .next (logRead (s.params.xxhBase + off) width 0 s))

/-- 20_memory.md rule R61: an access in the window of another width or alignment is refused. -/
def Obligations.IllegalAccessRefused : Prop :=
  ∀ s off width, off < windowSize → ¬ ((width = 4 ∧ off % 4 = 0) ∨ (width = 8 ∧ off % 8 = 0)) →
    runEvent (.read (s.params.xxhBase + off) width) s = .refused .illegalAccess ∧
    ∀ v, runEvent (.write (s.params.xxhBase + off) width v) s = .refused .illegalAccess

/-- 10_state.md rule R28 and 20_memory.md rule R61: a host read of DIGEST gives its value, whole or by halves. While
DIGEST_VALID = 0 the read is 60_exceptions.md rule R216's fault of the model, recorded as the machine goes on with the value
held: the model's choice (log 4). -/
def Obligations.DigestReadNeedsResult : Prop :=
  ∀ s, s.busy = false → ∃ t, t = { s with
      modelFaults := (if s.digestValid then [] else [.digest]) ++ s.modelFaults } ∧
    runEvent (r64 s.params offDigest) s = .next (logRead (s.params.xxhBase + offDigest) 8 s.digest t) ∧
    runEvent (r32 s.params offDigest) s = .next
      (logRead (s.params.xxhBase + offDigest) 4 ((loHalf s.digest).setWidth 64) t) ∧
    runEvent (r32 s.params (offDigest + 4)) s = .next
      (logRead (s.params.xxhBase + (offDigest + 4)) 4 ((hiHalf s.digest).setWidth 64) t)

/-- 20_memory.md rule R64 clause 1: a host store to the source memory, outside the open source ranges, is what a later read of
that byte gives, and changes no other byte. Which addresses take a store is the model's choice (log 18). -/
def Obligations.HostStoreIsRead : Prop :=
  ∀ s rest a b, Memory.wf s.mem = true → s.pending = .store a b :: rest → a < 2 ^ s.params.addrW →
    sourceKind s.params.regions a = some .memory → (∀ r ∈ s.unobserved, a < r.1 ∨ r.1 + r.2 ≤ a) →
    ∃ t, step s = .next t ∧ Memory.read t.mem a = b ∧ (∀ x, x ≠ a → Memory.read t.mem x = Memory.read s.mem x) ∧
      Memory.wf t.mem = true ∧ t = { s with mem := t.mem, pending := rest }

/-- 70_reset_and_hazards.md rule R252: after the CMD write of a WRITE or HASH a store into its source range is refused until the
host observes BUSY = 0; after a WAIT it is taken. A WRITE without a context, its SRC_ADDR or LEN_IN unwritten, refuses no
store: the model's choice (log 27). -/
def Obligations.SourceStability : Prop :=
  ∀ s w rest a b t, s.busy = false → Memory.wf s.mem = true → w = 0x00000002 ∨ w = 0x00000004 →
    s.srcAddr.value.toNat ≤ a → a < s.srcAddr.value.toNat + s.lenIn.value.toNat → a < 2 ^ s.params.addrW →
    sourceKind s.params.regions a = some .memory →
    (w = 0x00000004 ∨ s.ctx.valid = true ∨ (s.srcAddr.written = true ∧ s.lenIn.written = true) →
      s.pending = w32 s.params offCmd w :: .store a b :: rest →
      step s = .next t → step t = .refused .storeIntoRunningSource) ∧
    (w = 0x00000002 → s.ctx.valid = false → s.srcAddr.written = false ∨ s.lenIn.written = false →
      (∀ r ∈ s.unobserved, a < r.1 ∨ r.1 + r.2 ≤ a) →
      s.pending = w32 s.params offCmd w :: .store a b :: rest → step s = .next t →
      ∃ u, step t = .next u ∧ Memory.read u.mem a = b) ∧
    (s.pending = w32 s.params offCmd w :: .wait :: .store a b :: rest → steps 2 s = .next t →
      ∃ u, step t = .next u ∧ Memory.read u.mem a = b)

-- Datapath operations: the record `dp` they run over is the model's (log 1), the values are the rules'

/-- 00_scope.md rule R11: rotl64 is the circular rotation; bits leaving bit 63 enter at bit 0. -/
def Obligations.RotlIsCircular : Prop :=
  ∀ (a : Word) r, 0 < r → r < 64 → rotl64 a r = a.rotateLeft r ∧
    ∀ i < 64, (rotl64 a r).getLsbD i = a.getLsbD ((i + (64 - r)) % 64)

/-- 00_scope.md rule R12 and 20_memory.md rule R52: LE64 and LE32 as sums over the bytes, when the bytes exist. -/
def Obligations.LittleEndianWords : Prop :=
  ∀ (d : List Byte) i,
    (i + 8 ≤ d.length → (le64 d i).toNat = ((List.range 8).map fun k => (d.getD (i + k) 0).toNat * 2 ^ (8 * k)).sum) ∧
    (i + 4 ≤ d.length → (le32 d i).toNat = ((List.range 4).map fun k => (d.getD (i + k) 0).toNat * 2 ^ (8 * k)).sum)

/-- 40_mixing_core.md rules R102 to R108: each mixing-core operation completes with its formula's value, the constants of rule
R100 written out. -/
def Obligations.MixingCoreResults : Prop :=
  ∀ s, exec .laneInit s = .next { s with dp := { s.dp with
      quad :=
        ⟨s.dp.seed + 0x9E3779B185EBCA87 + 0xC2B2AE3D27D4EB4F, s.dp.seed + 0xC2B2AE3D27D4EB4F, s.dp.seed,
          s.dp.seed - 0x9E3779B185EBCA87⟩ } } ∧
    exec .shortInit s = .next { s with dp := { s.dp with acc := s.dp.seed + 0x27D4EB2F165667C5 } } ∧
    exec .round s = .next { s with dp := { s.dp with
      acc :=
        (s.dp.acc + s.dp.word * 0xC2B2AE3D27D4EB4F).rotateLeft 31 * 0x9E3779B185EBCA87 } } ∧
    exec .merge s = .next { s with dp := { s.dp with
      acc :=
        (s.dp.acc ^^^ ((s.dp.word * 0xC2B2AE3D27D4EB4F).rotateLeft 31 * 0x9E3779B185EBCA87)) * 0x9E3779B185EBCA87
          + 0x85EBCA77C2B2AE63 } } ∧
    exec .converge s = .next { s with dp := { s.dp with
      acc :=
        mergeLane (mergeLane (mergeLane (mergeLane
          (s.dp.quad.acc1.rotateLeft 1 + s.dp.quad.acc2.rotateLeft 7 + s.dp.quad.acc3.rotateLeft 12 +
            s.dp.quad.acc4.rotateLeft 18) s.dp.quad.acc1) s.dp.quad.acc2) s.dp.quad.acc3) s.dp.quad.acc4 } } ∧
    exec .lenAdd s = .next { s with dp := { s.dp with acc := s.dp.acc + s.dp.total } } ∧
    (let h1 := (s.dp.acc ^^^ (s.dp.acc >>> 33)) * 0xC2B2AE3D27D4EB4F
     let h2 := (h1 ^^^ (h1 >>> 29)) * 0x165667B19E3779F9
     exec .avalanche s = .next { s with dp := { s.dp with acc := h2 ^^^ (h2 >>> 32) } })

/-- 41_stripe_tail.md rules R130, R131, R133 to R136: each stripe and tail operation completes with its value. -/
def Obligations.StripeTailResults : Prop :=
  ∀ s, exec .stripe s = .next { s with dp := { s.dp with
      quad :=
        ⟨mixRound s.dp.quad.acc1 (le64 s.dp.blk.toList 0), mixRound s.dp.quad.acc2 (le64 s.dp.blk.toList 8),
          mixRound s.dp.quad.acc3 (le64 s.dp.blk.toList 16), mixRound s.dp.quad.acc4 (le64 s.dp.blk.toList 24)⟩ } } ∧
    exec .stripes s = .next { s with dp := { s.dp with
      quad := (stripes s.dp.quad s.dp.bytes).1, pos := 32 * (s.dp.bytes.length / 32) } } ∧
    exec .tail8 s = .next { s with dp := { s.dp with
      acc :=
        (s.dp.acc ^^^ mixRound 0 s.dp.word).rotateLeft 27 * 0x9E3779B185EBCA87 + 0x85EBCA77C2B2AE63 } } ∧
    exec .tail4 s = .next { s with dp := { s.dp with
      acc :=
        (s.dp.acc ^^^ (s.dp.word32.setWidth 64 * 0x9E3779B185EBCA87)).rotateLeft 23 * 0xC2B2AE3D27D4EB4F
          + 0x165667B19E3779F9 } } ∧
    exec .tail1 s = .next { s with dp := { s.dp with
      acc :=
        (s.dp.acc ^^^ (s.dp.byte.setWidth 64 * 0x27D4EB2F165667C5)).rotateLeft 11 * 0x9E3779B185EBCA87 } } ∧
    exec .tail s = .next { s with dp := { s.dp with acc := tail s.dp.acc s.dp.bytes } }

/-- 40_mixing_core.md and 41_stripe_tail.md: a datapath operation completes in every state, writes nothing but the datapath
record, and depends on nothing but it. -/
def Obligations.DatapathTouchesNoBlockState : Prop :=
  ∀ i, i ≠ .init → i ≠ .write → i ≠ .finish → i ≠ .hash →
    ∀ s u, s.dp = u.dp → ∃ dp, exec i s = .next { s with dp := dp } ∧ exec i u = .next { u with dp := dp }

/-- 40_mixing_core.md rule R109: the datapath operations run one after the other give XXH64, with the bytes after the stripes
presented to TAIL. -/
def Obligations.DatapathCompositionIsXxh64 : Prop :=
  ∀ s, s.dp.total = BitVec.ofNat 64 s.dp.bytes.length →
    (s.dp.bytes.length < 32 → ∃ s1 s2 s3 s4, exec .shortInit s = .next s1 ∧ exec .lenAdd s1 = .next s2 ∧
      exec .tail s2 = .next s3 ∧ exec .avalanche s3 = .next s4 ∧ s4.dp.acc = xxh64 s.dp.bytes s.dp.seed) ∧
    (32 ≤ s.dp.bytes.length → ∃ s1 s2 s3 s4 s5 s6, exec .laneInit s = .next s1 ∧ exec .stripes s1 = .next s2 ∧
      exec .converge s2 = .next s3 ∧ exec .lenAdd s3 = .next s4 ∧
      exec .tail { s4 with dp := { s4.dp with bytes := s4.dp.bytes.drop s4.dp.pos } } = .next s5 ∧
      exec .avalanche s5 = .next s6 ∧ s6.dp.acc = xxh64 s.dp.bytes s.dp.seed)

/-- 41_stripe_tail.md rule R131, the loop: below 32 bytes nothing is folded; otherwise the first 32 bytes are, and the loop
goes on after them. -/
def Obligations.StripesLoop : Prop :=
  ∀ q d, (d.length < 32 → stripes q d = (q, 0)) ∧
    (32 ≤ d.length → stripes q d =
      ((stripes (stripe q (d.take 32)) (d.drop 32)).1, (stripes (stripe q (d.take 32)) (d.drop 32)).2 + 32))

/-- 41_stripe_tail.md rule R131, the chunking law. -/
def Obligations.StripesChunkingLaw : Prop :=
  ∀ q d e, d.length % 32 = 0 → (stripes (stripes q d).1 e).1 = (stripes q (d ++ e)).1

/-- 41_stripe_tail.md rules R136 and R137: floor(r / 8) TAIL8 steps, floor((r mod 8) / 4) TAIL4 steps, r mod 4 TAIL1 steps,
over the bytes in increasing index order. -/
def Obligations.TailClassCounts : Prop :=
  ∀ acc t, t.length < 32 →
    (t.length % 8 < 4 →
      tail acc t = (t.drop (8 * (t.length / 8))).foldl tail1 (foldTail8 (t.length / 8) acc t) ∧
      (t.drop (8 * (t.length / 8))).length = t.length % 4) ∧
    (4 ≤ t.length % 8 →
      tail acc t = (t.drop (8 * (t.length / 8) + 4)).foldl tail1
        (tail4 (foldTail8 (t.length / 8) acc t) (le32 t (8 * (t.length / 8)))) ∧
      (t.drop (8 * (t.length / 8) + 4)).length = t.length % 4)

/-- 41_stripe_tail.md rule R136, the cascade, for a tail of any length: the 8-byte class while 8 bytes are left, the 4-byte
class once when 4 are, then a byte at a time. -/
def Obligations.TailCascade : Prop :=
  ∀ acc t, tail acc [] = acc ∧
    (8 ≤ t.length → tail acc t = tail (tail8 acc (le64 t 0)) (t.drop 8)) ∧
    (4 ≤ t.length → t.length < 8 → tail acc t = tail (tail4 acc (le32 t 0)) (t.drop 4)) ∧
    (∀ b, t.length < 3 → tail acc (b :: t) = tail (tail1 acc b) t)

/-- 40_mixing_core.md rule R108: AVALANCHE is a bijection on u64. -/
def Obligations.AvalancheIsBijective : Prop := Function.Bijective avalanche

/-- 40_mixing_core.md rule R104: for a fixed lane ROUND is a bijection in acc, and for a fixed acc in lane. -/
def Obligations.RoundIsBijective : Prop :=
  (∀ lane, Function.Bijective fun acc => mixRound acc lane) ∧ ∀ acc, Function.Bijective fun lane => mixRound acc lane

/-- 40_mixing_core.md rule R101: P1, P2 and P3 are odd, so multiplication by each is a bijection on u64. -/
def Obligations.PrimeMultiplicationIsBijective : Prop :=
  ∀ p, p = prime1 ∨ p = prime2 ∨ p = prime3 → p.getLsbD 0 = true ∧ Function.Bijective fun x : Word => x * p

/-- 10_state.md rules R32 and R34, over every step from every such state, not only runs from reset: the context is absent, or its
quad, carry buffer, BUFLEN and TOTAL_LEN are those of one stream of bytes. -/
def Obligations.StepKeepsStream : Prop := ∀ s t, AbsentOrStream s.ctx → step s = .next t → AbsentOrStream t.ctx
end

