-- ==== Sys2Proof/Laws/State.lean ====
section
/-! SUPPORT. One lemma per field for each named update of State, so that no proof unfolds a record update. -/
namespace Sys2Proof.Machine

@[simp] theorem startCommand_busy (s : State) : (startCommand s).busy = true := rfl
@[simp] theorem startCommand_err (s : State) : (startCommand s).err = s.err := rfl
@[simp] theorem startCommand_digestValid (s : State) : (startCommand s).digestValid = s.digestValid := rfl
@[simp] theorem startCommand_seedIn (s : State) : (startCommand s).seedIn = s.seedIn := rfl
@[simp] theorem startCommand_srcAddr (s : State) : (startCommand s).srcAddr = s.srcAddr := rfl
@[simp] theorem startCommand_lenIn (s : State) : (startCommand s).lenIn = s.lenIn := rfl
@[simp] theorem startCommand_digest (s : State) : (startCommand s).digest = s.digest := rfl
@[simp] theorem startCommand_ctx (s : State) : (startCommand s).ctx = s.ctx := rfl
@[simp] theorem startCommand_mem (s : State) : (startCommand s).mem = s.mem := rfl
@[simp] theorem startCommand_params (s : State) : (startCommand s).params = s.params := rfl
@[simp] theorem startCommand_reads (s : State) : (startCommand s).reads = s.reads := rfl
@[simp] theorem startCommand_unobserved (s : State) : (startCommand s).unobserved = s.unobserved := rfl
@[simp] theorem startCommand_modelFaults (s : State) : (startCommand s).modelFaults = s.modelFaults := rfl
@[simp] theorem startCommand_pending (s : State) : (startCommand s).pending = s.pending := rfl
@[simp] theorem startCommand_freeCount (s : State) : (startCommand s).freeCount = s.freeCount := rfl
@[simp] theorem startCommand_dp (s : State) : (startCommand s).dp = s.dp := rfl

@[simp] theorem completeCommand_busy (s : State) : (completeCommand s).busy = false := rfl
@[simp] theorem completeCommand_err (s : State) : (completeCommand s).err = .none := rfl
@[simp] theorem completeCommand_digestValid (s : State) : (completeCommand s).digestValid = s.digestValid := rfl
@[simp] theorem completeCommand_seedIn (s : State) : (completeCommand s).seedIn = s.seedIn := rfl
@[simp] theorem completeCommand_srcAddr (s : State) : (completeCommand s).srcAddr = s.srcAddr := rfl
@[simp] theorem completeCommand_lenIn (s : State) : (completeCommand s).lenIn = s.lenIn := rfl
@[simp] theorem completeCommand_digest (s : State) : (completeCommand s).digest = s.digest := rfl
@[simp] theorem completeCommand_ctx (s : State) : (completeCommand s).ctx = s.ctx := rfl
@[simp] theorem completeCommand_mem (s : State) : (completeCommand s).mem = s.mem := rfl
@[simp] theorem completeCommand_params (s : State) : (completeCommand s).params = s.params := rfl
@[simp] theorem completeCommand_reads (s : State) : (completeCommand s).reads = s.reads := rfl
@[simp] theorem completeCommand_unobserved (s : State) : (completeCommand s).unobserved = s.unobserved := rfl
@[simp] theorem completeCommand_modelFaults (s : State) : (completeCommand s).modelFaults = s.modelFaults := rfl
@[simp] theorem completeCommand_pending (s : State) : (completeCommand s).pending = s.pending := rfl
@[simp] theorem completeCommand_freeCount (s : State) : (completeCommand s).freeCount = s.freeCount := rfl
@[simp] theorem completeCommand_dp (s : State) : (completeCommand s).dp = s.dp := rfl

@[simp] theorem setDigest_busy (v : Word) (s : State) : (setDigest v s).busy = s.busy := rfl
@[simp] theorem setDigest_err (v : Word) (s : State) : (setDigest v s).err = s.err := rfl
@[simp] theorem setDigest_digestValid (v : Word) (s : State) : (setDigest v s).digestValid = true := rfl
@[simp] theorem setDigest_seedIn (v : Word) (s : State) : (setDigest v s).seedIn = s.seedIn := rfl
@[simp] theorem setDigest_srcAddr (v : Word) (s : State) : (setDigest v s).srcAddr = s.srcAddr := rfl
@[simp] theorem setDigest_lenIn (v : Word) (s : State) : (setDigest v s).lenIn = s.lenIn := rfl
@[simp] theorem setDigest_digest (v : Word) (s : State) : (setDigest v s).digest = v := rfl
@[simp] theorem setDigest_ctx (v : Word) (s : State) : (setDigest v s).ctx = s.ctx := rfl
@[simp] theorem setDigest_mem (v : Word) (s : State) : (setDigest v s).mem = s.mem := rfl
@[simp] theorem setDigest_params (v : Word) (s : State) : (setDigest v s).params = s.params := rfl
@[simp] theorem setDigest_reads (v : Word) (s : State) : (setDigest v s).reads = s.reads := rfl
@[simp] theorem setDigest_unobserved (v : Word) (s : State) : (setDigest v s).unobserved = s.unobserved := rfl
@[simp] theorem setDigest_modelFaults (v : Word) (s : State) : (setDigest v s).modelFaults = s.modelFaults := rfl
@[simp] theorem setDigest_pending (v : Word) (s : State) : (setDigest v s).pending = s.pending := rfl
@[simp] theorem setDigest_freeCount (v : Word) (s : State) : (setDigest v s).freeCount = s.freeCount := rfl
@[simp] theorem setDigest_dp (v : Word) (s : State) : (setDigest v s).dp = s.dp := rfl

@[simp] theorem raiseCmdError_busy (c : ErrCode) (s : State) : (raiseCmdError c s).busy = false := rfl
@[simp] theorem raiseCmdError_err (c : ErrCode) (s : State) : (raiseCmdError c s).err = c := rfl
@[simp] theorem raiseCmdError_digestValid (c : ErrCode) (s : State) : (raiseCmdError c s).digestValid = s.digestValid := rfl
@[simp] theorem raiseCmdError_seedIn (c : ErrCode) (s : State) : (raiseCmdError c s).seedIn = s.seedIn := rfl
@[simp] theorem raiseCmdError_srcAddr (c : ErrCode) (s : State) : (raiseCmdError c s).srcAddr = s.srcAddr := rfl
@[simp] theorem raiseCmdError_lenIn (c : ErrCode) (s : State) : (raiseCmdError c s).lenIn = s.lenIn := rfl
@[simp] theorem raiseCmdError_digest (c : ErrCode) (s : State) : (raiseCmdError c s).digest = s.digest := rfl
@[simp] theorem raiseCmdError_ctx (c : ErrCode) (s : State) : (raiseCmdError c s).ctx = s.ctx := rfl
@[simp] theorem raiseCmdError_mem (c : ErrCode) (s : State) : (raiseCmdError c s).mem = s.mem := rfl
@[simp] theorem raiseCmdError_params (c : ErrCode) (s : State) : (raiseCmdError c s).params = s.params := rfl
@[simp] theorem raiseCmdError_reads (c : ErrCode) (s : State) : (raiseCmdError c s).reads = s.reads := rfl
@[simp] theorem raiseCmdError_unobserved (c : ErrCode) (s : State) : (raiseCmdError c s).unobserved = s.unobserved := rfl
@[simp] theorem raiseCmdError_modelFaults (c : ErrCode) (s : State) : (raiseCmdError c s).modelFaults = s.modelFaults := rfl
@[simp] theorem raiseCmdError_pending (c : ErrCode) (s : State) : (raiseCmdError c s).pending = s.pending := rfl
@[simp] theorem raiseCmdError_freeCount (c : ErrCode) (s : State) : (raiseCmdError c s).freeCount = s.freeCount := rfl
@[simp] theorem raiseCmdError_dp (c : ErrCode) (s : State) : (raiseCmdError c s).dp = s.dp := rfl

@[simp] theorem logRead_busy (a n : Nat) (v : Word) (s : State) : (logRead a n v s).busy = s.busy := rfl
@[simp] theorem logRead_err (a n : Nat) (v : Word) (s : State) : (logRead a n v s).err = s.err := rfl
@[simp] theorem logRead_digestValid (a n : Nat) (v : Word) (s : State) : (logRead a n v s).digestValid = s.digestValid := rfl
@[simp] theorem logRead_seedIn (a n : Nat) (v : Word) (s : State) : (logRead a n v s).seedIn = s.seedIn := rfl
@[simp] theorem logRead_srcAddr (a n : Nat) (v : Word) (s : State) : (logRead a n v s).srcAddr = s.srcAddr := rfl
@[simp] theorem logRead_lenIn (a n : Nat) (v : Word) (s : State) : (logRead a n v s).lenIn = s.lenIn := rfl
@[simp] theorem logRead_digest (a n : Nat) (v : Word) (s : State) : (logRead a n v s).digest = s.digest := rfl
@[simp] theorem logRead_ctx (a n : Nat) (v : Word) (s : State) : (logRead a n v s).ctx = s.ctx := rfl
@[simp] theorem logRead_mem (a n : Nat) (v : Word) (s : State) : (logRead a n v s).mem = s.mem := rfl
@[simp] theorem logRead_params (a n : Nat) (v : Word) (s : State) : (logRead a n v s).params = s.params := rfl
@[simp] theorem logRead_reads (a n : Nat) (v : Word) (s : State) : (logRead a n v s).reads = ⟨a, n, v⟩ :: s.reads := rfl
@[simp] theorem logRead_unobserved (a n : Nat) (v : Word) (s : State) : (logRead a n v s).unobserved = s.unobserved := rfl
@[simp] theorem logRead_modelFaults (a n : Nat) (v : Word) (s : State) : (logRead a n v s).modelFaults = s.modelFaults := rfl
@[simp] theorem logRead_pending (a n : Nat) (v : Word) (s : State) : (logRead a n v s).pending = s.pending := rfl
@[simp] theorem logRead_freeCount (a n : Nat) (v : Word) (s : State) : (logRead a n v s).freeCount = s.freeCount := rfl
@[simp] theorem logRead_dp (a n : Nat) (v : Word) (s : State) : (logRead a n v s).dp = s.dp := rfl

@[simp] theorem resetBlock_busy (s : State) : (resetBlock s).busy = false := rfl
@[simp] theorem resetBlock_err (s : State) : (resetBlock s).err = .none := rfl
@[simp] theorem resetBlock_digestValid (s : State) : (resetBlock s).digestValid = false := rfl
@[simp] theorem resetBlock_seedIn (s : State) : (resetBlock s).seedIn = .unwritten := rfl
@[simp] theorem resetBlock_srcAddr (s : State) : (resetBlock s).srcAddr = .unwritten := rfl
@[simp] theorem resetBlock_lenIn (s : State) : (resetBlock s).lenIn = .unwritten := rfl
@[simp] theorem resetBlock_digest (s : State) : (resetBlock s).digest = 0 := rfl
@[simp] theorem resetBlock_ctx (s : State) : (resetBlock s).ctx = .reset := rfl
@[simp] theorem resetBlock_mem (s : State) : (resetBlock s).mem = s.mem := rfl
@[simp] theorem resetBlock_params (s : State) : (resetBlock s).params = s.params := rfl
@[simp] theorem resetBlock_reads (s : State) : (resetBlock s).reads = s.reads := rfl
@[simp] theorem resetBlock_unobserved (s : State) : (resetBlock s).unobserved = [] := rfl
@[simp] theorem resetBlock_modelFaults (s : State) : (resetBlock s).modelFaults = s.modelFaults := rfl
@[simp] theorem resetBlock_pending (s : State) : (resetBlock s).pending = s.pending := rfl
@[simp] theorem resetBlock_freeCount (s : State) : (resetBlock s).freeCount = s.freeCount := rfl
@[simp] theorem resetBlock_dp (s : State) : (resetBlock s).dp = .idle := rfl

@[simp] theorem takeEvent_busy (rest : List Event) (s : State) : (takeEvent rest s).busy = s.busy := rfl
@[simp] theorem takeEvent_err (rest : List Event) (s : State) : (takeEvent rest s).err = s.err := rfl
@[simp] theorem takeEvent_digestValid (rest : List Event) (s : State) : (takeEvent rest s).digestValid = s.digestValid := rfl
@[simp] theorem takeEvent_seedIn (rest : List Event) (s : State) : (takeEvent rest s).seedIn = s.seedIn := rfl
@[simp] theorem takeEvent_srcAddr (rest : List Event) (s : State) : (takeEvent rest s).srcAddr = s.srcAddr := rfl
@[simp] theorem takeEvent_lenIn (rest : List Event) (s : State) : (takeEvent rest s).lenIn = s.lenIn := rfl
@[simp] theorem takeEvent_digest (rest : List Event) (s : State) : (takeEvent rest s).digest = s.digest := rfl
@[simp] theorem takeEvent_ctx (rest : List Event) (s : State) : (takeEvent rest s).ctx = s.ctx := rfl
@[simp] theorem takeEvent_mem (rest : List Event) (s : State) : (takeEvent rest s).mem = s.mem := rfl
@[simp] theorem takeEvent_params (rest : List Event) (s : State) : (takeEvent rest s).params = s.params := rfl
@[simp] theorem takeEvent_reads (rest : List Event) (s : State) : (takeEvent rest s).reads = s.reads := rfl
@[simp] theorem takeEvent_unobserved (rest : List Event) (s : State) : (takeEvent rest s).unobserved = s.unobserved := rfl
@[simp] theorem takeEvent_modelFaults (rest : List Event) (s : State) : (takeEvent rest s).modelFaults = s.modelFaults := rfl
@[simp] theorem takeEvent_pending (rest : List Event) (s : State) : (takeEvent rest s).pending = rest := rfl
@[simp] theorem takeEvent_freeCount (rest : List Event) (s : State) : (takeEvent rest s).freeCount = s.freeCount := rfl
@[simp] theorem takeEvent_dp (rest : List Event) (s : State) : (takeEvent rest s).dp = s.dp := rfl

@[simp] theorem acceptCommand_busy (i : Instr) (s : State) : (acceptCommand i s).busy = true := rfl
@[simp] theorem acceptCommand_err (i : Instr) (s : State) : (acceptCommand i s).err = s.err := rfl
@[simp] theorem acceptCommand_digestValid (i : Instr) (s : State) : (acceptCommand i s).digestValid = s.digestValid := rfl
@[simp] theorem acceptCommand_seedIn (i : Instr) (s : State) : (acceptCommand i s).seedIn = s.seedIn := rfl
@[simp] theorem acceptCommand_srcAddr (i : Instr) (s : State) : (acceptCommand i s).srcAddr = s.srcAddr := rfl
@[simp] theorem acceptCommand_lenIn (i : Instr) (s : State) : (acceptCommand i s).lenIn = s.lenIn := rfl
@[simp] theorem acceptCommand_digest (i : Instr) (s : State) : (acceptCommand i s).digest = s.digest := rfl
@[simp] theorem acceptCommand_ctx (i : Instr) (s : State) : (acceptCommand i s).ctx = s.ctx := rfl
@[simp] theorem acceptCommand_mem (i : Instr) (s : State) : (acceptCommand i s).mem = s.mem := rfl
@[simp] theorem acceptCommand_params (i : Instr) (s : State) : (acceptCommand i s).params = s.params := rfl
@[simp] theorem acceptCommand_reads (i : Instr) (s : State) : (acceptCommand i s).reads = s.reads := rfl
@[simp] theorem acceptCommand_unobserved (i : Instr) (s : State) :
    (acceptCommand i s).unobserved = sourceRange i s ++ s.unobserved := rfl
@[simp] theorem acceptCommand_modelFaults (i : Instr) (s : State) : (acceptCommand i s).modelFaults = s.modelFaults := rfl
@[simp] theorem acceptCommand_pending (i : Instr) (s : State) : (acceptCommand i s).pending = s.pending := rfl
@[simp] theorem acceptCommand_freeCount (i : Instr) (s : State) : (acceptCommand i s).freeCount = s.freeCount := rfl
@[simp] theorem acceptCommand_dp (i : Instr) (s : State) : (acceptCommand i s).dp = s.dp := rfl

@[simp] theorem observeIdle_busy (s : State) : (observeIdle s).busy = s.busy := rfl
@[simp] theorem observeIdle_err (s : State) : (observeIdle s).err = s.err := rfl
@[simp] theorem observeIdle_digestValid (s : State) : (observeIdle s).digestValid = s.digestValid := rfl
@[simp] theorem observeIdle_seedIn (s : State) : (observeIdle s).seedIn = s.seedIn := rfl
@[simp] theorem observeIdle_srcAddr (s : State) : (observeIdle s).srcAddr = s.srcAddr := rfl
@[simp] theorem observeIdle_lenIn (s : State) : (observeIdle s).lenIn = s.lenIn := rfl
@[simp] theorem observeIdle_digest (s : State) : (observeIdle s).digest = s.digest := rfl
@[simp] theorem observeIdle_ctx (s : State) : (observeIdle s).ctx = s.ctx := rfl
@[simp] theorem observeIdle_mem (s : State) : (observeIdle s).mem = s.mem := rfl
@[simp] theorem observeIdle_params (s : State) : (observeIdle s).params = s.params := rfl
@[simp] theorem observeIdle_reads (s : State) : (observeIdle s).reads = s.reads := rfl
@[simp] theorem observeIdle_unobserved (s : State) : (observeIdle s).unobserved = [] := rfl
@[simp] theorem observeIdle_modelFaults (s : State) : (observeIdle s).modelFaults = s.modelFaults := rfl
@[simp] theorem observeIdle_pending (s : State) : (observeIdle s).pending = s.pending := rfl
@[simp] theorem observeIdle_freeCount (s : State) : (observeIdle s).freeCount = s.freeCount := rfl
@[simp] theorem observeIdle_dp (s : State) : (observeIdle s).dp = s.dp := rfl

@[simp] theorem noteUses_busy (us : List UnspecifiedUse) (s : State) : (noteUses us s).busy = s.busy := rfl
@[simp] theorem noteUses_err (us : List UnspecifiedUse) (s : State) : (noteUses us s).err = s.err := rfl
@[simp] theorem noteUses_digestValid (us : List UnspecifiedUse) (s : State) : (noteUses us s).digestValid = s.digestValid := rfl
@[simp] theorem noteUses_seedIn (us : List UnspecifiedUse) (s : State) : (noteUses us s).seedIn = s.seedIn := rfl
@[simp] theorem noteUses_srcAddr (us : List UnspecifiedUse) (s : State) : (noteUses us s).srcAddr = s.srcAddr := rfl
@[simp] theorem noteUses_lenIn (us : List UnspecifiedUse) (s : State) : (noteUses us s).lenIn = s.lenIn := rfl
@[simp] theorem noteUses_digest (us : List UnspecifiedUse) (s : State) : (noteUses us s).digest = s.digest := rfl
@[simp] theorem noteUses_ctx (us : List UnspecifiedUse) (s : State) : (noteUses us s).ctx = s.ctx := rfl
@[simp] theorem noteUses_mem (us : List UnspecifiedUse) (s : State) : (noteUses us s).mem = s.mem := rfl
@[simp] theorem noteUses_params (us : List UnspecifiedUse) (s : State) : (noteUses us s).params = s.params := rfl
@[simp] theorem noteUses_reads (us : List UnspecifiedUse) (s : State) : (noteUses us s).reads = s.reads := rfl
@[simp] theorem noteUses_unobserved (us : List UnspecifiedUse) (s : State) : (noteUses us s).unobserved = s.unobserved := rfl
@[simp] theorem noteUses_pending (us : List UnspecifiedUse) (s : State) : (noteUses us s).pending = s.pending := rfl
@[simp] theorem noteUses_freeCount (us : List UnspecifiedUse) (s : State) : (noteUses us s).freeCount = s.freeCount := rfl
@[simp] theorem noteUses_dp (us : List UnspecifiedUse) (s : State) : (noteUses us s).dp = s.dp := rfl
@[simp] theorem noteUses_modelFaults (us : List UnspecifiedUse) (s : State) :
    (noteUses us s).modelFaults = us ++ s.modelFaults := rfl
@[simp] theorem noteUses_nil (s : State) : noteUses [] s = s := rfl
@[simp] theorem noteUses_append (us vs : List UnspecifiedUse) (s : State) :
    noteUses us (noteUses vs s) = noteUses (us ++ vs) s := by
  simp [noteUses]
@[simp] theorem operandReg_noteUses (us : List UnspecifiedUse) (s : State) (r : OperandName) :
    operandReg (noteUses us s) r = operandReg s r := by
  cases r <;> rfl
@[simp] theorem operandUse_noteUses (us : List UnspecifiedUse) (s : State) (r : OperandName) :
    operandUse (noteUses us s) r = operandUse s r := by
  simp [operandUse]

end Sys2Proof.Machine
end

