-- ==== Sys2Proof/Laws/Carry.lean ====
section
/-! SUPPORT. The carry buffer, and how a byte list is folded into the quad. -/
namespace Sys2Proof.Machine

theorem getElem_bufWrite (buf : Vector Byte 32) (pos : Nat) (d : List Byte) (i : Nat) (hi : i < 32) :
    (bufWrite buf pos d)[i] = if pos ≤ i then d.getD (i - pos) buf[i] else buf[i] := by
  simp [bufWrite]

theorem getElem_bufForget (buf : Vector Byte 32) (len n i : Nat) (hi : i < 32) :
    (bufForget buf len n)[i] = if i < len then buf[i] else Config.freeBufByte n i := by
  simp [bufForget]

/-- Bytes written at a position follow the bytes before it. -/
theorem take_bufWrite (buf : Vector Byte 32) {pos : Nat} {d : List Byte} (h : pos + d.length ≤ 32) :
    (bufWrite buf pos d).toList.take (pos + d.length) = buf.toList.take pos ++ d := by
  apply List.ext_getElem
  · simp; omega
  · intro i h1 h2
    simp only [List.length_take, Vector.length_toList] at h1
    rw [List.getElem_take, Vector.getElem_toList, getElem_bufWrite _ _ _ _ (by omega), List.getElem_append]
    simp only [List.length_take, Vector.length_toList]
    split_ifs with ha hb hb
    · omega
    · rw [List.getD_eq_getElem _ _ (by omega)]
      congr 1; omega
    · rw [List.getElem_take, Vector.getElem_toList]
    · omega

/-- Forgetting the bytes not below `len` keeps those below it. -/
theorem take_bufForget (buf : Vector Byte 32) (len n : Nat) :
    (bufForget buf len n).toList.take len = buf.toList.take len := by
  apply List.ext_getElem
  · simp
  · intro i h1 h2
    simp only [List.length_take, Vector.length_toList] at h1
    rw [List.getElem_take, List.getElem_take, Vector.getElem_toList, Vector.getElem_toList,
      getElem_bufForget _ _ _ _ (by omega), if_pos (by omega)]

/-- Only the first 32k bytes are folded by k stripes. -/
theorem foldStripes_take (k : Nat) (q : Quad) (d e : List Byte) (h : 32 * k ≤ d.length) :
    foldStripes k q (d ++ e) = foldStripes k q d := by
  induction k generalizing q d with
  | zero => rfl
  | succ k ih =>
    rw [foldStripes, foldStripes, List.take_append_of_le_length (by omega), List.drop_append_of_le_length (by omega)]
    exact ih _ _ (by simp; omega)

/-- k stripes and then j stripes are k + j stripes. -/
theorem foldStripes_add (k j : Nat) (q : Quad) (d : List Byte) :
    foldStripes (k + j) q d = foldStripes j (foldStripes k q d) (d.drop (32 * k)) := by
  induction k generalizing q d with
  | zero => simp [foldStripes]
  | succ k ih =>
    rw [show k + 1 + j = (k + j) + 1 by omega, foldStripes, foldStripes, ih, List.drop_drop]
    congr 2; omega

/-- A WRITE writes nothing but the context (and the model's counter of free values). -/
theorem absorb_eq (s : State) (d : List Byte) :
    absorb s d = { s with ctx := (absorb s d).ctx, freeCount := (absorb s d).freeCount } := by
  unfold absorb; split <;> rfl

@[simp] theorem absorb_busy (s : State) (d : List Byte) : (absorb s d).busy = s.busy := by rw [absorb_eq]
@[simp] theorem absorb_err (s : State) (d : List Byte) : (absorb s d).err = s.err := by rw [absorb_eq]
@[simp] theorem absorb_digestValid (s : State) (d : List Byte) : (absorb s d).digestValid = s.digestValid := by
  rw [absorb_eq]
@[simp] theorem absorb_seedIn (s : State) (d : List Byte) : (absorb s d).seedIn = s.seedIn := by rw [absorb_eq]
@[simp] theorem absorb_srcAddr (s : State) (d : List Byte) : (absorb s d).srcAddr = s.srcAddr := by rw [absorb_eq]
@[simp] theorem absorb_lenIn (s : State) (d : List Byte) : (absorb s d).lenIn = s.lenIn := by rw [absorb_eq]
@[simp] theorem absorb_digest (s : State) (d : List Byte) : (absorb s d).digest = s.digest := by rw [absorb_eq]
@[simp] theorem absorb_mem (s : State) (d : List Byte) : (absorb s d).mem = s.mem := by rw [absorb_eq]
@[simp] theorem absorb_params (s : State) (d : List Byte) : (absorb s d).params = s.params := by rw [absorb_eq]
@[simp] theorem absorb_reads (s : State) (d : List Byte) : (absorb s d).reads = s.reads := by rw [absorb_eq]
@[simp] theorem absorb_unobserved (s : State) (d : List Byte) : (absorb s d).unobserved = s.unobserved := by
  rw [absorb_eq]
@[simp] theorem absorb_modelFaults (s : State) (d : List Byte) : (absorb s d).modelFaults = s.modelFaults := by
  rw [absorb_eq]
@[simp] theorem absorb_pending (s : State) (d : List Byte) : (absorb s d).pending = s.pending := by rw [absorb_eq]
@[simp] theorem absorb_dp (s : State) (d : List Byte) : (absorb s d).dp = s.dp := by rw [absorb_eq]

/-- Absorbing a chunk does not look at the model's faults. -/
@[simp] theorem absorb_noteUses (us : List UnspecifiedUse) (s : State) (d : List Byte) :
    absorb (noteUses us s) d = noteUses us (absorb s d) := by
  by_cases h : s.ctx.bufLen.toNat + d.length < 32 <;> simp only [absorb, noteUses_ctx, h, if_true, if_false] <;> rfl

@[simp] theorem absorb_ctx_valid (s : State) (d : List Byte) : (absorb s d).ctx.valid = s.ctx.valid := by
  unfold absorb; split
  · simp only [bufferChunk]
  · simp only [foldChunk]

@[simp] theorem absorb_ctx_seed (s : State) (d : List Byte) : (absorb s d).ctx.seed = s.ctx.seed := by
  unfold absorb; split
  · simp only [bufferChunk]
  · simp only [foldChunk]

@[simp] theorem absorb_ctx_totalLen (s : State) (d : List Byte) :
    (absorb s d).ctx.totalLen = s.ctx.totalLen + BitVec.ofNat 64 d.length := by
  unfold absorb; split
  · simp only [bufferChunk]
  · simp only [foldChunk]

/-- After a WRITE the carry buffer holds what the length leaves over whole stripes (10_state.md rule R31). -/
theorem absorb_bufLen {s : State} (d : List Byte) (h : s.ctx.bufLen.toNat < 32) :
    (absorb s d).ctx.bufLen.toNat = (s.ctx.bufLen.toNat + d.length) % 32 := by
  unfold absorb
  split
  · simp only [bufferChunk, BitVec.toNat_ofNat]; omega
  · simp only [foldChunk, BitVec.toNat_ofNat, List.length_drop, stripes, completeStripe]
    split <;> simp only <;> omega

/-- A first stripe of 32 bytes and k more. -/
theorem foldStripes_succ_append (k : Nat) (q : Quad) {a : List Byte} (b : List Byte) (ha : a.length = 32) :
    foldStripes (k + 1) q (a ++ b) = foldStripes k (stripe q a) b := by
  rw [foldStripes, List.take_append_of_le_length (by omega), List.take_of_length_le (by omega),
    List.drop_append_of_le_length (by omega), List.drop_of_length_le (by omega), List.nil_append]

theorem bufWrite_nil (buf : Vector Byte 32) (pos : Nat) : bufWrite buf pos [] = buf := by
  apply Vector.ext; intro i hi; rw [getElem_bufWrite]; simp

/-- The carry buffer holds BUFLEN bytes. -/
theorem carried_length {c : Context} (h : c.bufLen.toNat < 32) : (carried c).length = c.bufLen.toNat := by
  simp [carried]; omega

/-- A WRITE folds every whole stripe of the carried bytes followed by the chunk, and carries the rest. -/
theorem absorb_spec {s : State} (d : List Byte) (hl : s.ctx.bufLen.toNat < 32) :
    (absorb s d).ctx.quad = foldStripes ((carried s.ctx ++ d).length / 32) s.ctx.quad (carried s.ctx ++ d) ∧
      carried (absorb s d).ctx = (carried s.ctx ++ d).drop (32 * ((carried s.ctx ++ d).length / 32)) := by
  have hcl := carried_length hl
  by_cases hlt : s.ctx.bufLen.toNat + d.length < 32
  · have e : (carried s.ctx ++ d).length / 32 = 0 := by simp [hcl]; omega
    rw [absorb, if_pos hlt, e]
    constructor
    · simp only [bufferChunk, foldStripes]
    · simp only [bufferChunk, carried, BitVec.toNat_ofNat]
      rw [Nat.mod_eq_of_lt (by omega), take_bufWrite _ (by omega)]; simp
  · rw [absorb, if_neg hlt]
    by_cases h0 : s.ctx.bufLen.toNat = 0
    · have hc : carried s.ctx = [] := by simp [carried, h0]
      have hcs : completeStripe s.ctx d = (s.ctx, 0) := by simp [completeStripe, h0]
      simp only [foldChunk, hcs, hc, List.nil_append, List.drop_zero, Nat.zero_add]
      refine ⟨rfl, ?_⟩
      have hl2 : (d.drop (stripes s.ctx.quad d).2).length < 32 := by simp [stripes]; omega
      simp only [carried, BitVec.toNat_ofNat]
      rw [Nat.mod_eq_of_lt (by omega), take_bufForget]
      have := take_bufWrite s.ctx.buf (pos := 0) (d := d.drop (stripes s.ctx.quad d).2) (by omega)
      simp only [Nat.zero_add, List.take_zero, List.nil_append] at this
      rw [this]; rfl
    · obtain ⟨k, hk⟩ : ∃ k, k = 32 - s.ctx.bufLen.toNat := ⟨_, rfl⟩
      have hfull : (bufWrite s.ctx.buf s.ctx.bufLen.toNat (d.take k)).toList = carried s.ctx ++ d.take k := by
        have := take_bufWrite s.ctx.buf (pos := s.ctx.bufLen.toNat) (d := d.take k) (by simp; omega)
        rw [← carried] at this
        rw [← this]
        refine (List.take_of_length_le ?_).symm
        rw [Vector.length_toList, List.length_take]; omega
      have hsplit : carried s.ctx ++ d = (carried s.ctx ++ d.take k) ++ d.drop k := by simp
      have hlen : (carried s.ctx ++ d.take k).length = 32 := by simp [hcl]; omega
      have hcs : completeStripe s.ctx d =
          ({ s.ctx with
              buf := bufWrite s.ctx.buf s.ctx.bufLen.toNat (d.take k),
              quad := stripe s.ctx.quad (carried s.ctx ++ d.take k) }, k) := by
        simp only [completeStripe]; rw [if_pos (by omega), ← hk, hfull]
      have e : ((carried s.ctx ++ d.take k) ++ d.drop k).length / 32 = (d.drop k).length / 32 + 1 := by
        rw [List.length_append, hlen]; omega
      simp only [foldChunk, hcs]
      rw [hsplit, e, foldStripes_succ_append _ _ _ hlen]
      refine ⟨rfl, ?_⟩
      generalize stripe s.ctx.quad (carried s.ctx ++ d.take k) = q
      have hd : ((carried s.ctx ++ d.take k) ++ d.drop k).drop (32 * ((d.drop k).length / 32 + 1)) =
          d.drop (k + (stripes q (d.drop k)).2) := by
        rw [List.drop_append, List.drop_of_length_le (by omega), List.nil_append, List.drop_drop, hlen]
        simp only [stripes, List.length_drop]; congr 1
      rw [hd]
      have hl2 : (d.drop (k + (stripes q (d.drop k)).2)).length < 32 := by simp [stripes]; omega
      simp only [carried, BitVec.toNat_ofNat]
      rw [Nat.mod_eq_of_lt (by omega), take_bufForget]
      have := take_bufWrite (bufWrite s.ctx.buf s.ctx.bufLen.toNat (d.take k)) (pos := 0)
        (d := d.drop (k + (stripes q (d.drop k)).2)) (by omega)
      simpa using this

end Sys2Proof.Machine
end

