-- ==== Sys2Proof/Laws/Operands.lean ====
section
/-! SUPPORT. What each shared operand operation can do: one inversion lemma and one completion lemma each. -/
namespace Sys2Proof.Machine

/-- Everything the range check can do: nothing to check; ADDR_RANGE; or the rest runs on the range. Where it reads SRC_ADDR the
use of an unwritten one is recorded. -/
theorem withRange_cases (n : Word) (s : State) (k : Nat → State → Result) :
    (n = 0 ∧ withRange n s k = k 0 s) ∨
      (n ≠ 0 ∧ 2 ^ s.params.addrW < s.srcAddr.value.toNat + n.toNat ∧
        withRange n s k = .next (raiseCmdError .addrRange (noteUses (operandUse s .srcAddr) s))) ∨
      (n ≠ 0 ∧ s.srcAddr.value.toNat + n.toNat ≤ 2 ^ s.params.addrW ∧
        withRange n s k = k s.srcAddr.value.toNat (noteUses (operandUse s .srcAddr) s)) := by
  unfold withRange
  split
  · exact .inl ⟨‹_›, rfl⟩
  · obtain hlt | hge := Nat.lt_or_ge (2 ^ s.params.addrW) (s.srcAddr.value.toNat + n.toNat)
    · exact .inr (.inl ⟨‹_›, hlt, if_pos hlt⟩)
    · exact .inr (.inr ⟨‹_›, hge, if_neg (Nat.not_lt.2 hge)⟩)

theorem withRange_zero {s : State} {k : Nat → State → Result} : withRange 0 s k = k 0 s := by simp [withRange]

theorem withRange_ok {n : Word} {s : State} {k : Nat → State → Result} (hn : n ≠ 0)
    (h : s.srcAddr.value.toNat + n.toNat ≤ 2 ^ s.params.addrW) :
    withRange n s k = k s.srcAddr.value.toNat (noteUses (operandUse s .srcAddr) s) := by
  rw [withRange, if_neg hn]
  exact if_neg (Nat.not_lt.2 h)

theorem withRange_beyond {n : Word} {s : State} {k : Nat → State → Result} (hn : n ≠ 0)
    (h : 2 ^ s.params.addrW < s.srcAddr.value.toNat + n.toNat) :
    withRange n s k = .next (raiseCmdError .addrRange (noteUses (operandUse s .srcAddr) s)) := by
  rw [withRange, if_neg hn]
  exact if_pos h

theorem rangeAll_iff (q : Nat → Bool) (a n : Nat) : rangeAll q a n = true ↔ ∀ i < n, q (a + i) = true := by
  induction n generalizing a with
  | zero => simp [rangeAll]
  | succ n ih =>
    simp only [rangeAll, Bool.and_eq_true, ih]
    constructor
    · rintro ⟨h0, h⟩ i hi
      obtain _ | i := i
      · exact h0
      · rw [show a + (i + 1) = a + 1 + i by omega]; exact h i (by omega)
    · intro h
      refine ⟨h 0 (by omega), fun i hi => ?_⟩
      have := h (i + 1) (by omega)
      rwa [show a + 1 + i = a + (i + 1) by omega]

/-- The source reads, when they answer a next state: the rest ran on the range's bytes. -/
theorem withSource_next {a n : Nat} {s t : State} {k : List Byte → Result} (h : withSource a n s k = .next t) :
    k (sourceBytes s.mem a n) = .next t := by
  unfold withSource at h
  split at h
  · cases h
  · split at h
    · cases h
    · exact h

/-- Where every byte of the range is memory without read side effects, the rest runs on the range's bytes. -/
theorem withSource_memory {a n : Nat} {s : State} {k : List Byte → Result}
    (h : ∀ i < n, sourceKind s.params.regions (a + i) = some .memory) :
    withSource a n s k = k (sourceBytes s.mem a n) := by
  have h1 : rangeAll (fun x => !readsWithSideEffects s.params x) a n = true :=
    (rangeAll_iff _ _ _).2 fun i hi => by simp [readsWithSideEffects, h i hi]
  have h2 : rangeAll (srcAdmit s.params) a n = true :=
    (rangeAll_iff _ _ _).2 fun i hi => by simp [srcAdmit, h i hi]
  simp [withSource, h1, h2]

@[simp] theorem length_sourceBytes (m : Memory) (a n : Nat) : (sourceBytes m a n).length = n := by
  induction n generalizing a with
  | zero => rfl
  | succ n ih => simp [sourceBytes, ih]

/-- The bytes of a range, by index (20_memory.md rule R57). -/
theorem sourceBytes_eq_map (m : Memory) (a n : Nat) :
    sourceBytes m a n = (List.range n).map fun i => Memory.read m (a + i) := by
  induction n generalizing a with
  | zero => rfl
  | succ n ih =>
    rw [sourceBytes, ih, List.range_succ_eq_map, List.map_cons, List.map_map]
    congr 1
    exact List.map_congr_left fun i _ => by simp [Function.comp, Nat.add_assoc, Nat.add_comm 1]

theorem sourceBytes_congr {m m' : Memory} {a n : Nat} (h : ∀ i < n, Memory.read m (a + i) = Memory.read m' (a + i)) :
    sourceBytes m a n = sourceBytes m' a n := by
  rw [sourceBytes_eq_map, sourceBytes_eq_map]
  exact List.map_congr_left fun i hi => h i (List.mem_range.1 hi)

theorem leNat_lt (d : List Byte) : leNat d < 256 ^ d.length := by
  induction d with
  | nil => simp [leNat]
  | cons b d ih => simp only [leNat, List.length_cons, Nat.pow_succ]; have := b.isLt; omega

end Sys2Proof.Machine
end

