-- ==== Sys2Proof/Laws/Commands.lean ====
section
/-! SUPPORT. What each command can do when it answers a next state: one inversion lemma each. -/
namespace Sys2Proof.Machine

/-- INIT always answers: it establishes a context under the seed SEED_IN holds. -/
theorem execInit_eq (s : State) :
    execInit s = .next (noteUses (operandUse s .seedIn) (completeCommand { s with
      ctx := initContext s.seedIn.value s.freeCount s.ctx, freeCount := s.freeCount + 1 })) := rfl

theorem execInit_next {s t : State} (h : execInit s = .next t) :
    t = noteUses (operandUse s .seedIn) (completeCommand { s with
      ctx := initContext s.seedIn.value s.freeCount s.ctx, freeCount := s.freeCount + 1 }) := by
  rw [execInit_eq] at h; cases h; rfl

/-- FINISH always answers: NO_CONTEXT, or the digest. -/
theorem execFinish_next {s t : State} (h : execFinish s = .next t) :
    (s.ctx.valid = false ∧ t = raiseCmdError .noContext s) ∨
      (s.ctx.valid = true ∧ t = completeCommand (setDigest (streamDigest s.ctx) s)) := by
  unfold execFinish at h
  split at h <;> cases h
  · exact .inl ⟨‹_›, rfl⟩
  · exact .inr ⟨by simpa using ‹¬ s.ctx.valid = false›, rfl⟩

/-- Reading LEN_IN and the range, when it answers a next state: ADDR_RANGE, or the rest ran on the range (at 0 where LEN_IN is 0
and SRC_ADDR is not read). -/
theorem withChunk_next {s t : State} {k : Word → Nat → State → Result}
    (h : (withOperand .lenIn s fun n u => withRange n u (k n)) = .next t) :
    (s.lenIn.value ≠ 0 ∧ 2 ^ s.params.addrW < s.srcAddr.value.toNat + s.lenIn.value.toNat ∧
        t = noteUses (chunkUses s) (raiseCmdError .addrRange s)) ∨
      (s.lenIn.value = 0 ∧ k s.lenIn.value 0 (noteUses (chunkUses s) s) = .next t) ∨
      k s.lenIn.value s.srcAddr.value.toNat (noteUses (chunkUses s) s) = .next t := by
  replace h : withRange s.lenIn.value (noteUses (operandUse s .lenIn) s) (k s.lenIn.value) = .next t := h
  obtain ⟨h0, e⟩ | ⟨h0, hb, e⟩ | ⟨h0, -, e⟩ :=
    withRange_cases s.lenIn.value (noteUses (operandUse s .lenIn) s) (k s.lenIn.value) <;> rw [e] at h
  · exact .inr (.inl ⟨h0, by simpa [chunkUses, h0] using h⟩)
  · rw [operandUse_noteUses, noteUses_append] at h
    cases h; exact .inl ⟨h0, hb, by simp only [chunkUses, if_neg h0]; rfl⟩
  · rw [operandUse_noteUses, noteUses_append] at h
    exact .inr (.inr (by simp only [chunkUses, if_neg h0]; exact h))

/-- The bytes of a chunk, whether or not SRC_ADDR was read for them. -/
theorem sourceBytes_empty {s : State} (h : s.lenIn.value = 0) (a : Nat) :
    sourceBytes s.mem a s.lenIn.value.toNat = sourceBytes s.mem s.srcAddr.value.toNat s.lenIn.value.toNat := by
  have : s.lenIn.value.toNat = 0 := by simp [h]
  rw [this]; rfl

/-- HASH answers ADDR_RANGE, or the digest of its range. -/
theorem execHash_next {s t : State} (h : execHash s = .next t) :
    (s.lenIn.value ≠ 0 ∧ 2 ^ s.params.addrW < s.srcAddr.value.toNat + s.lenIn.value.toNat ∧
        t = noteUses (commandUses .hash s) (raiseCmdError .addrRange s)) ∨
      t = noteUses (commandUses .hash s) (completeCommand (setDigest
        (xxh64 (sourceBytes s.mem s.srcAddr.value.toNat s.lenIn.value.toNat) s.seedIn.value) s)) := by
  have e : chunkUses (noteUses (operandUse s .seedIn) s) = chunkUses s := by simp [chunkUses]
  unfold execHash at h
  rw [withOperand] at h
  obtain ⟨h0, hb, rfl⟩ | ⟨h0, h⟩ | h := withChunk_next (s := noteUses (operandUse s .seedIn) s)
    (k := fun n a u => withSource a n.toNat u fun d => .next (completeCommand (setDigest (xxh64 d s.seedIn.value) u))) h
  · exact .inl ⟨h0, hb, by rw [e]; simp only [commandUses, ← noteUses_append]; rfl⟩
  · have := withSource_next h
    cases this
    refine .inr ?_
    rw [e, noteUses_append, ← sourceBytes_empty (show s.lenIn.value = 0 from h0) 0]; rfl
  · have := withSource_next h
    cases this
    exact .inr (by rw [e, noteUses_append]; rfl)

/-- WRITE answers one of its three errors, or absorbs its range. -/
theorem execWrite_next {s t : State} (h : execWrite s = .next t) :
    (s.ctx.valid = false ∧ t = raiseCmdError .noContext s) ∨
      (s.ctx.valid = true ∧
        ((s.lenIn.value ≠ 0 ∧ 2 ^ s.params.addrW < s.srcAddr.value.toNat + s.lenIn.value.toNat ∧
            t = noteUses (chunkUses s) (raiseCmdError .addrRange s)) ∨
          (2 ^ 64 - 1 < s.ctx.totalLen.toNat + s.lenIn.value.toNat ∧
            t = noteUses (chunkUses s) (raiseCmdError .lenOverflow s)) ∨
          (s.ctx.totalLen.toNat + s.lenIn.value.toNat ≤ 2 ^ 64 - 1 ∧
            t = noteUses (chunkUses s) (completeCommand
              (absorb s (sourceBytes s.mem s.srcAddr.value.toNat s.lenIn.value.toNat)))))) := by
  unfold execWrite at h
  split at h
  · cases h; exact .inl ⟨‹_›, rfl⟩
  · refine .inr ⟨by simpa using ‹¬ s.ctx.valid = false›, ?_⟩
    have key : ∀ a, (if s.ctx.totalLen.toNat + s.lenIn.value.toNat > 2 ^ 64 - 1 then
          Host.Outcome.next (raiseCmdError .lenOverflow (noteUses (chunkUses s) s))
        else withSource a s.lenIn.value.toNat (noteUses (chunkUses s) s) fun d =>
          .next (completeCommand (absorb (noteUses (chunkUses s) s) d))) = .next t →
        (2 ^ 64 - 1 < s.ctx.totalLen.toNat + s.lenIn.value.toNat ∧
            t = noteUses (chunkUses s) (raiseCmdError .lenOverflow s)) ∨
          (s.ctx.totalLen.toNat + s.lenIn.value.toNat ≤ 2 ^ 64 - 1 ∧
            t = noteUses (chunkUses s) (completeCommand (absorb s (sourceBytes s.mem a s.lenIn.value.toNat)))) := by
      intro a ha
      split at ha
      · cases ha; exact .inl ⟨by assumption, rfl⟩
      · have := withSource_next ha
        rw [absorb_noteUses] at this
        cases this
        exact .inr ⟨by omega, rfl⟩
    obtain ⟨h0, hb, rfl⟩ | ⟨h0, h⟩ | h := withChunk_next h
    · exact .inl ⟨h0, hb, rfl⟩
    · have := key 0 h
      rw [sourceBytes_empty h0] at this
      exact .inr this
    · exact .inr (key _ h)

/-- No label names a command. -/
theorem decodeUop_no_command (l : BitVec 5) :
    decodeUop l ≠ .ok .init ∧ decodeUop l ≠ .ok .write ∧ decodeUop l ≠ .ok .finish ∧ decodeUop l ≠ .ok .hash := by
  revert l; decide

/-- A label names a datapath operation, which completes and writes only the datapath record. -/
theorem exec_of_label {b : Byte} {i : Instr} (h : decodeLabelByte b = .ok i) (s : State) :
    ∃ dp, exec i s = .next { s with dp := dp } := by
  have hl : decodeUop (b.extractLsb' 0 5) = .ok i := by
    unfold decodeLabelByte at h
    split at h
    · cases h
    · exact h
  obtain ⟨h1, h2, h3, h4⟩ := decodeUop_no_command (b.extractLsb' 0 5)
  cases i <;> first
    | exact absurd hl h1
    | exact absurd hl h2
    | exact absurd hl h3
    | exact absurd hl h4
    | exact ⟨_, rfl⟩

/-- A CMD word names a command. -/
theorem decodeCmd_ok {w : Word32} {i : Instr} (h : decodeCmd w = .ok i) :
    i = .init ∨ i = .write ∨ i = .finish ∨ i = .hash := by
  simp only [decodeCmd] at h
  split_ifs at h <;> simp only [Except.ok.injEq] at h <;> subst h <;> simp

end Sys2Proof.Machine
end

