-- ==== Sys2Proof/Laws/Datapath.lean ====
section
/-! SUPPORT. What each datapath operation answers, in one equation each. -/
namespace Sys2Proof.Machine

variable (s : State)

theorem exec_laneInit : exec .laneInit s = .next { s with dp := { s.dp with quad := laneInit s.dp.seed } } := rfl
theorem exec_shortInit : exec .shortInit s = .next { s with dp := { s.dp with acc := shortInit s.dp.seed } } := rfl
theorem exec_round : exec .round s = .next { s with dp := { s.dp with acc := mixRound s.dp.acc s.dp.word } } := rfl
theorem exec_merge : exec .merge s = .next { s with dp := { s.dp with acc := mergeLane s.dp.acc s.dp.word } } := rfl
theorem exec_converge : exec .converge s = .next { s with dp := { s.dp with acc := converge s.dp.quad } } := rfl
theorem exec_lenAdd : exec .lenAdd s = .next { s with dp := { s.dp with acc := lenAdd s.dp.acc s.dp.total } } := rfl
theorem exec_avalanche : exec .avalanche s = .next { s with dp := { s.dp with acc := avalanche s.dp.acc } } := rfl
theorem exec_stripe :
    exec .stripe s = .next { s with dp := { s.dp with quad := stripe s.dp.quad s.dp.blk.toList } } := rfl
theorem exec_stripes : exec .stripes s = .next { s with dp := { s.dp with
    quad := (stripes s.dp.quad s.dp.bytes).1, pos := (stripes s.dp.quad s.dp.bytes).2 } } := rfl
theorem exec_tail8 : exec .tail8 s = .next { s with dp := { s.dp with acc := tail8 s.dp.acc s.dp.word } } := rfl
theorem exec_tail4 : exec .tail4 s = .next { s with dp := { s.dp with acc := tail4 s.dp.acc s.dp.word32 } } := rfl
theorem exec_tail1 : exec .tail1 s = .next { s with dp := { s.dp with acc := tail1 s.dp.acc s.dp.byte } } := rfl
theorem exec_tail : exec .tail s = .next { s with dp := { s.dp with acc := tail s.dp.acc s.dp.bytes } } := rfl

end Sys2Proof.Machine
end

