-- ==== Sys2Proof/Laws/Halves.lean ====
section
/-! SUPPORT. Halves of 64-bit registers and bytes of CMD words. -/
namespace Sys2Proof.Machine

theorem getLsbD_joinHalves (hi lo : Word32) {i : Nat} (h : i < 64) :
    (joinHalves hi lo).getLsbD i = if i < 32 then lo.getLsbD i else hi.getLsbD (i - 32) := by
  simp only [joinHalves, BitVec.getLsbD_or, BitVec.getLsbD_shiftLeft, BitVec.getLsbD_setWidth, h, decide_true,
    Bool.true_and]
  split
  · simp [*]
  · rw [BitVec.getLsbD_of_ge lo i (by omega)]; simp [*]; omega

theorem getLsbD_loHalf (v : Word) {i : Nat} (h : i < 32) : (loHalf v).getLsbD i = v.getLsbD i := by
  simp only [loHalf, BitVec.getLsbD_extractLsb', h, decide_true, Bool.true_and, Nat.zero_add]

theorem getLsbD_hiHalf (v : Word) {i : Nat} (h : i < 32) : (hiHalf v).getLsbD i = v.getLsbD (32 + i) := by
  simp only [hiHalf, BitVec.getLsbD_extractLsb', h, decide_true, Bool.true_and]

@[simp] theorem loHalf_joinHalves (hi lo : Word32) : loHalf (joinHalves hi lo) = lo := by
  apply BitVec.eq_of_getLsbD_eq
  intro i h
  rw [getLsbD_loHalf _ h, getLsbD_joinHalves _ _ (by omega), if_pos h]

@[simp] theorem hiHalf_joinHalves (hi lo : Word32) : hiHalf (joinHalves hi lo) = hi := by
  apply BitVec.eq_of_getLsbD_eq
  intro i h
  rw [getLsbD_hiHalf _ h, getLsbD_joinHalves _ _ (by omega), if_neg (by omega), Nat.add_sub_cancel_left]

@[simp] theorem joinHalves_halves (v : Word) : joinHalves (hiHalf v) (loHalf v) = v := by
  apply BitVec.eq_of_getLsbD_eq
  intro i h
  rw [getLsbD_joinHalves _ _ h]
  split
  · exact getLsbD_loHalf _ ‹_›
  · rw [getLsbD_hiHalf _ (by omega), Nat.add_sub_cancel' (by omega)]

@[simp] theorem loHalf_setWidth (w : Word32) : loHalf (w.setWidth 64) = w := by
  apply BitVec.eq_of_getLsbD_eq
  intro i hi
  simp [loHalf, hi]; omega

theorem getLsbD_cmdWord (b0 b1 b2 b3 : Byte) {i : Nat} (h : i < 32) :
    (cmdWord b0 b1 b2 b3).getLsbD i =
      if i < 8 then b0.getLsbD i else if i < 16 then b1.getLsbD (i - 8) else if i < 24 then b2.getLsbD (i - 16)
      else b3.getLsbD (i - 24) := by
  simp only [cmdWord, BitVec.getLsbD_or, BitVec.getLsbD_shiftLeft, BitVec.getLsbD_setWidth, h, decide_true, Bool.true_and]
  split_ifs with h1 h2 h3
  · simp [h1, show i < 16 by omega, show i < 24 by omega]
  · rw [BitVec.getLsbD_of_ge b0 i (by omega)]; simp [h1, h2, show i < 24 by omega]; omega
  · rw [BitVec.getLsbD_of_ge b0 i (by omega), BitVec.getLsbD_of_ge b1 (i - 8) (by omega)]
    simp [h2, h3]; omega
  · rw [BitVec.getLsbD_of_ge b0 i (by omega), BitVec.getLsbD_of_ge b1 (i - 8) (by omega),
      BitVec.getLsbD_of_ge b2 (i - 16) (by omega)]
    simp [h3]; omega

/-- A CMD word is its four bytes. -/
theorem cmdWord_bytes (w : Word32) :
    cmdWord (w.extractLsb' 0 8) (w.extractLsb' 8 8) (w.extractLsb' 16 8) (w.extractLsb' 24 8) = w := by
  apply BitVec.eq_of_getLsbD_eq
  intro i h
  rw [getLsbD_cmdWord _ _ _ _ h]
  simp only [BitVec.getLsbD_extractLsb']
  split_ifs
  · simp [*]
  · rw [show 8 + (i - 8) = i by omega]; simp; omega
  · rw [show 16 + (i - 16) = i by omega]; simp; omega
  · rw [show 24 + (i - 24) = i by omega]; simp; omega

/-- The bytes of a CMD word, one by one. -/
theorem bytes_cmdWord (b0 b1 b2 b3 : Byte) :
    (cmdWord b0 b1 b2 b3).extractLsb' 0 8 = b0 ∧ (cmdWord b0 b1 b2 b3).extractLsb' 8 8 = b1 ∧
      (cmdWord b0 b1 b2 b3).extractLsb' 16 8 = b2 ∧ (cmdWord b0 b1 b2 b3).extractLsb' 24 8 = b3 := by
  refine ⟨?_, ?_, ?_, ?_⟩ <;> apply BitVec.eq_of_getLsbD_eq <;> intro i h <;>
    simp only [BitVec.getLsbD_extractLsb', h, decide_true, Bool.true_and] <;>
    rw [getLsbD_cmdWord _ _ _ _ (by omega)]
  · simp [h]
  · simp [show ¬ 8 + i < 8 by omega, show 8 + i < 16 by omega]
  · simp [show ¬ 16 + i < 8 by omega, show ¬ 16 + i < 16 by omega, show 16 + i < 24 by omega]
  · simp [show ¬ 24 + i < 8 by omega, show ¬ 24 + i < 16 by omega, show ¬ 24 + i < 24 by omega]

end Sys2Proof.Machine
end

