-- ==== Sys2Proof/Laws/Memory.lean ====
section
/-! SUPPORT. The source memory: reads after writes, and the canonical form. -/
namespace Sys2Proof.Machine

theorem Memory.above_mono {lo lo' : Nat} (h : lo' ≤ lo) {m : Memory} (hm : Memory.above lo m = true) :
    Memory.above lo' m = true := by
  cases m with
  | nil => rfl
  | cons e m => simp only [Memory.above, decide_eq_true_eq] at *; omega

/-- Every address of a canonical memory above `lo` reads as unlisted at or below `lo`. -/
theorem Memory.read_below {lo : Nat} {m : Memory} (hw : Memory.wf m = true) (hm : Memory.above lo m = true) {a : Nat}
    (ha : a ≤ lo) : Memory.read m a = Config.unlistedByte a := by
  induction m generalizing lo with
  | nil => rfl
  | cons e m ih =>
    simp only [Memory.wf, Memory.above, Bool.and_eq_true, decide_eq_true_eq] at hw hm
    rw [Memory.read, if_neg (by omega)]
    exact ih hw.2 hw.1.2 (by omega)

theorem Memory.above_write {lo a : Nat} {b : Byte} {m : Memory} (hm : Memory.above lo m = true) (ha : lo < a) :
    Memory.wf m = true → Memory.above lo (Memory.write m a b) = true := by
  intro hw
  cases m with
  | nil => simp only [Memory.write]; split <;> simp [Memory.above, ha]
  | cons e m =>
    simp only [Memory.wf, Memory.above, Bool.and_eq_true, decide_eq_true_eq] at hw hm
    simp only [Memory.write]
    split_ifs <;> simp only [Memory.above, decide_eq_true_eq] <;> first
      | omega
      | exact Memory.above_mono (by omega) hw.1.2

/-- A store keeps the canonical form. -/
theorem Memory.write_wf {m : Memory} (hw : Memory.wf m = true) (a : Nat) (b : Byte) :
    Memory.wf (Memory.write m a b) = true := by
  induction m with
  | nil => simp only [Memory.write]; split <;> simp_all [Memory.wf, Memory.above]
  | cons e m ih =>
    have hw' := hw
    simp only [Memory.wf, Bool.and_eq_true, decide_eq_true_eq] at hw
    simp only [Memory.write]
    split_ifs with h1 h2 h3 h4
    · exact hw'
    · simp only [Memory.wf, Bool.and_eq_true, decide_eq_true_eq]
      exact ⟨⟨h2, by simpa [Memory.above] using h1⟩, hw⟩
    · exact hw.2
    · subst h3; simp only [Memory.wf, Bool.and_eq_true, decide_eq_true_eq]
      exact ⟨⟨h4, hw.1.2⟩, hw.2⟩
    · simp only [Memory.wf, Bool.and_eq_true, decide_eq_true_eq]
      exact ⟨⟨hw.1.1, Memory.above_write hw.1.2 (by omega) hw.2⟩, ih hw.2⟩

theorem Memory.read_write_same {m : Memory} (hw : Memory.wf m = true) (a : Nat) (b : Byte) :
    Memory.read (Memory.write m a b) a = b := by
  induction m with
  | nil => simp only [Memory.write]; split <;> simp_all [Memory.read]
  | cons e m ih =>
    have hw' := hw
    simp only [Memory.wf, Bool.and_eq_true, decide_eq_true_eq] at hw
    simp only [Memory.write]
    split_ifs with h1 h2 h3 h4
    · rw [Memory.read, if_neg (by omega), h2]
      exact Memory.read_below hw.2 hw.1.2 (by omega)
    · simp [Memory.read]
    · subst h3; rw [h4]; exact Memory.read_below hw.2 hw.1.2 le_rfl
    · simp [Memory.read]
    · rw [Memory.read, if_neg (by omega)]; exact ih hw.2

theorem Memory.read_write_other {m : Memory} (hw : Memory.wf m = true) {a x : Nat} (b : Byte) (hx : x ≠ a) :
    Memory.read (Memory.write m a b) x = Memory.read m x := by
  induction m with
  | nil => simp only [Memory.write]; split <;> simp [Memory.read, Ne.symm hx]
  | cons e m ih =>
    simp only [Memory.wf, Bool.and_eq_true, decide_eq_true_eq] at hw
    simp only [Memory.write]
    split_ifs with h1 h2 h3 h4
    · rfl
    · rw [Memory.read, if_neg (Ne.symm hx)]
    · subst h3; rw [Memory.read, if_neg (Ne.symm hx)]
    · subst h3; simp [Memory.read, Ne.symm hx]
    · simp only [Memory.read]; split
      · rfl
      · exact ih hw.2

end Sys2Proof.Machine
end

