-- ==== Sys2Proof/Laws/PerInstr.lean ====
section
/-! SUPPORT. Statements made per instruction: each row's own bits, as spec/opcode_table.json numbers them, decode to it. -/
namespace Sys2Proof.Laws.TableRow

/-- A command's encoding has RSVD zero and decodes to it as a 32-bit row (30_encoding.md rules R71 and R72); a datapath
operation's label decodes to it as an 8-bit row (rule R82). -/
def Statement (i : Instr) : Prop :=
  match encode i with
  | .cmd32 w => w.extractLsb' 8 24 = 0 ∧ decodeTableWord 32 w.toNat = some i
  | .uop label => decodeTableWord 8 label.toNat = some i

theorem init : Statement .init := ⟨by decide, by decide⟩
theorem write : Statement .write := ⟨by decide, by decide⟩
theorem finish : Statement .finish := ⟨by decide, by decide⟩
theorem hash : Statement .hash := ⟨by decide, by decide⟩
theorem laneInit : Statement .laneInit := rfl
theorem shortInit : Statement .shortInit := rfl
theorem round : Statement .round := rfl
theorem merge : Statement .merge := rfl
theorem converge : Statement .converge := rfl
theorem lenAdd : Statement .lenAdd := rfl
theorem avalanche : Statement .avalanche := rfl
theorem stripe : Statement .stripe := rfl
theorem stripes : Statement .stripes := rfl
theorem tail8 : Statement .tail8 := rfl
theorem tail4 : Statement .tail4 := rfl
theorem tail1 : Statement .tail1 := rfl
theorem tail : Statement .tail := rfl

end Sys2Proof.Laws.TableRow
end

