-- ==== Sys2Proof/Laws/Ready.lean ====
section
/-! SUPPORT. What a ready operand range gives a command, and where WRITE runs to its end. -/
namespace Sys2Proof.Machine

@[simp] theorem length_inputBytes (s : State) : (inputBytes s).length = s.lenIn.value.toNat := by
  simp [inputBytes, rangeBytes]

theorem sourceBytes_input (s : State) :
    sourceBytes s.mem s.srcAddr.value.toNat s.lenIn.value.toNat = inputBytes s := sourceBytes_eq_map _ _ _

/-- Where the range does not pass the top of the source space, the rest runs on it (at 0 where LEN_IN is 0). -/
theorem chunk_ok {s : State} {k : Word → Nat → State → Result} {r : Result}
    (h : s.lenIn.value ≠ 0 → s.srcAddr.value.toNat + s.lenIn.value.toNat ≤ 2 ^ s.params.addrW)
    (hk : ∀ a, a = s.srcAddr.value.toNat ∨ s.lenIn.value = 0 → k s.lenIn.value a (noteUses (chunkUses s) s) = r) :
    (withOperand .lenIn s fun n u => withRange n u (k n)) = r := by
  show withRange s.lenIn.value (noteUses (operandUse s .lenIn) s) (k s.lenIn.value) = r
  by_cases h0 : s.lenIn.value = 0
  · have hu : chunkUses s = operandUse s .lenIn := by simp [chunkUses, h0]
    rw [← hu, h0, withRange_zero, ← h0]
    exact hk _ (.inr h0)
  · have hu : chunkUses s = operandUse s .srcAddr ++ operandUse s .lenIn := by simp only [chunkUses, if_neg h0]
    rw [withRange_ok h0 (by exact h h0), operandUse_noteUses, noteUses_append, ← hu]
    exact hk _ (.inl rfl)

/-- Where it does, the command ends with ADDR_RANGE. -/
theorem chunk_beyond {s : State} {k : Word → Nat → State → Result} (h0 : s.lenIn.value ≠ 0)
    (h : 2 ^ s.params.addrW < s.srcAddr.value.toNat + s.lenIn.value.toNat) :
    (withOperand .lenIn s fun n u => withRange n u (k n)) =
      .next (noteUses (chunkUses s) (raiseCmdError .addrRange s)) := by
  show withRange s.lenIn.value (noteUses (operandUse s .lenIn) s) (k s.lenIn.value) = _
  have hu : chunkUses s = operandUse s .srcAddr ++ operandUse s .lenIn := by simp only [chunkUses, if_neg h0]
  rw [withRange_beyond h0 (by exact h), operandUse_noteUses, noteUses_append, ← hu]; rfl

/-- With a ready chunk the operand reads and the range check go through, and the source reads give the command's input. -/
theorem chunk_ready {s : State} {k : Word → Nat → State → Result} {r : Result} (h : ChunkReady s)
    (hk : ∀ a, (∀ f, withSource a s.lenIn.value.toNat (noteUses (chunkUses s) s) f = f (inputBytes s)) →
      k s.lenIn.value a (noteUses (chunkUses s) s) = r) :
    (withOperand .lenIn s fun n u => withRange n u (k n)) = r := by
  refine chunk_ok (fun h0 => (h h0).1) fun a ha => hk a fun f => ?_
  by_cases h0 : s.lenIn.value = 0
  · rw [withSource_memory (by simp [h0]), ← sourceBytes_input, ← sourceBytes_empty h0 a]; rfl
  · obtain rfl := ha.resolve_right h0
    rw [withSource_memory (by exact (h h0).2), ← sourceBytes_input]; rfl

theorem write_ready {s : State} (hv : s.ctx.valid = true) (hr : ChunkReady s)
    (ho : s.ctx.totalLen.toNat + s.lenIn.value.toNat ≤ 2 ^ 64 - 1) :
    exec .write s = .next (noteUses (chunkUses s) (completeCommand (absorb s (inputBytes s)))) := by
  show execWrite s = _
  rw [execWrite, if_neg (by simp [hv])]
  refine chunk_ready hr fun a ha => ?_
  refine (if_neg (Nat.not_lt.2 ho)).trans ((ha _).trans ?_)
  rw [absorb_noteUses]; rfl

/-- HASH reads SEED_IN, then its chunk. -/
theorem execHash_eq (s : State) :
    execHash s = withOperand .lenIn (noteUses (operandUse s .seedIn) s) fun n u => withRange n u fun a u =>
      withSource a n.toNat u fun d => .next (completeCommand (setDigest (xxh64 d s.seedIn.value) u)) := by
  unfold execHash; rw [withOperand]; rfl

theorem hash_ready {s : State} (hr : ChunkReady s) :
    exec .hash s = .next (noteUses (commandUses .hash s)
      (completeCommand (setDigest (xxh64 (inputBytes s) s.seedIn.value) s))) := by
  have e : chunkUses (noteUses (operandUse s .seedIn) s) = chunkUses s := by simp [chunkUses]
  show execHash s = _
  rw [execHash_eq]
  refine chunk_ready (s := noteUses (operandUse s .seedIn) s) hr fun a ha => ?_
  rw [e, noteUses_append] at ha ⊢
  exact ha _

end Sys2Proof.Machine
end

