-- ==== Sys2Proof/Laws/Step.lean ====
section
/-! SUPPORT. What one event, and so one step, can do. -/
namespace Sys2Proof.Machine

/-- A host address in the window has its offset. -/
theorem windowOffset_base (p : Params) {off : Nat} (h : off < windowSize) :
    windowOffset p (p.xxhBase + off) = some off := by
  rw [windowOffset, if_pos ⟨by omega, by omega⟩]
  congr 1; omega

/-- A CMD write answers a next state by running the command it decodes to, or by ILLEGAL_CMD. -/
theorem issueCommand_next {w : Word32} {s t : State} (h : issueCommand w s = .next t) :
    s.busy = false ∧ ((∃ i, decodeCmd w = .ok i ∧ exec i (acceptCommand i s) = .next t) ∨
      (∃ e, decodeCmd w = .error e) ∧ t = raiseCmdError .illegalCmd s) := by
  unfold issueCommand at h
  split at h
  · cases h
  · refine ⟨by simpa using ‹¬ s.busy = true›, ?_⟩
    split at h
    · exact .inl ⟨_, by assumption, h⟩
    · cases h; exact .inr ⟨⟨_, by assumption⟩, rfl⟩

/-- A host write answers a next state by a CMD write, or by changing at most the operand registers. -/
theorem hostWrite_next {addr width : Nat} {v : Word} {s t : State} (h : hostWrite addr width v s = .next t) :
    (windowOffset s.params addr = some offCmd ∧ issueCommand (loHalf v) s = .next t) ∨
      ∃ r1 r2 r3, t = { s with seedIn := r1, srcAddr := r2, lenIn := r3 } := by
  unfold hostWrite at h
  split at h
  · cases h
  · rename_i off hoff
    split_ifs at h with h1 h2 h3 h4 h5 h6
    · exact .inl ⟨h2 ▸ hoff, h⟩
    all_goals cases h; exact .inr ⟨_, _, _, rfl⟩

/-- A host read answers a next state only by logging the value read, recording a read of DIGEST before any result, and closing the
source ranges if it covers STATUS. -/
theorem hostRead_next {addr width : Nat} {s t : State} (h : hostRead addr width s = .next t) :
    ∃ off, windowOffset s.params addr = some off ∧
      t = logRead addr width (readValue s off width) (afterRead off width (noteUses (digestUse off s) s)) := by
  unfold hostRead at h
  split at h
  · cases h
  · split_ifs at h
    cases h; exact ⟨_, by assumption, rfl⟩

/-- Everything one event can do when it answers a next state. -/
theorem runEvent_next {e : Event} {s t : State} (h : runEvent e s = .next t) :
    (∃ addr width v i, e = .write addr width v ∧ windowOffset s.params addr = some offCmd ∧
        decodeCmd (loHalf v) = .ok i ∧ s.busy = false ∧ exec i (acceptCommand i s) = .next t) ∨
      (s.busy = false ∧ t = raiseCmdError .illegalCmd s) ∨
      (∃ r1 r2 r3, t = { s with seedIn := r1, srcAddr := r2, lenIn := r3 }) ∨
      (∃ a n v us, t = logRead a n v (noteUses us s) ∨ t = logRead a n v (observeIdle (noteUses us s))) ∨
      (s.busy = true ∧ e = .wait ∧ t = { s with pending := .wait :: s.pending }) ∨
      (∃ a b, e = .store a b ∧ t = { s with mem := Memory.write s.mem a b }) ∨
      (e = .reset ∧ t = resetBlock s) ∨
      (∃ dp, t = { s with dp := dp }) := by
  cases e with
  | write addr width v =>
    obtain ⟨ho, h⟩ | h := hostWrite_next h
    · obtain ⟨hb, ⟨i, hi, h⟩ | ⟨-, rfl⟩⟩ := issueCommand_next h
      · exact .inl ⟨_, _, _, _, rfl, ho, hi, hb, h⟩
      · exact .inr (.inl ⟨hb, rfl⟩)
    · exact .inr (.inr (.inl h))
  | read addr width =>
    obtain ⟨off, -, rfl⟩ := hostRead_next h
    refine .inr (.inr (.inr (.inl ⟨addr, width, readValue s off width, digestUse off s, ?_⟩)))
    unfold afterRead
    split
    · exact .inr rfl
    · exact .inl rfl
  | wait =>
    simp only [runEvent, hostWait] at h
    split at h <;> cases h
    · exact .inr (.inr (.inr (.inr (.inl ⟨by assumption, rfl, rfl⟩))))
    · exact .inr (.inr (.inr (.inl ⟨_, _, _, [], .inr rfl⟩)))
  | store a b =>
    simp only [runEvent, hostStore] at h
    split_ifs at h
    cases h
    exact .inr (.inr (.inr (.inr (.inr (.inl ⟨_, _, rfl, rfl⟩)))))
  | reset => cases h; exact .inr (.inr (.inr (.inr (.inr (.inr (.inl ⟨rfl, rfl⟩))))))
  | operands dp => cases h; exact .inr (.inr (.inr (.inr (.inr (.inr (.inr ⟨_, rfl⟩))))))
  | uop label =>
    simp only [runEvent, runUop] at h
    split at h
    · obtain ⟨dp, hdp⟩ := exec_of_label (by assumption) s
      rw [hdp] at h; cases h
      exact .inr (.inr (.inr (.inr (.inr (.inr (.inr ⟨_, rfl⟩))))))
    · cases h

/-- A step is idle or takes the next event. -/
theorem step_cases (s : State) :
    (s.pending = [] ∧ step s = .next s) ∨
      ∃ e rest, s.pending = e :: rest ∧ step s = runEvent e (takeEvent rest s) := by
  unfold step
  cases h : s.pending with
  | nil => exact .inl ⟨rfl, rfl⟩
  | cons e rest => exact .inr ⟨e, rest, rfl, rfl⟩

theorem step_cons {s : State} {e : Event} {rest : List Event} (h : s.pending = e :: rest) :
    step s = runEvent e (takeEvent rest s) := by
  simp [step, h]

/-- If a step answers a next state, it was idle or it took the next event. -/
theorem step_next {s t : State} (h : step s = .next t) :
    (s.pending = [] ∧ t = s) ∨ ∃ e rest, s.pending = e :: rest ∧ runEvent e (takeEvent rest s) = .next t := by
  obtain ⟨hp, e⟩ | ⟨e, rest, hp, hs⟩ := step_cases s
  · rw [e] at h; cases h; exact .inl ⟨hp, rfl⟩
  · exact .inr ⟨e, rest, hp, hs ▸ h⟩

end Sys2Proof.Machine
end

