-- ==== Sys2Proof/Tests/Slice0.lean ====
section
/-! SUPPORT. Tests of the model, their results from spec/95_test_vectors.md and spec/30_encoding.md, and witnesses that meet
the hypotheses of each statement. -/
-- One theorem after the other: a thread for each asks for more memory than the check allows.
set_option Elab.async false

namespace Sys2Proof.Tests
open Sys2Proof Sys2Proof.Machine

-- Small states

/-- The bytes d from an address on. -/
def bytesAt (a : Nat) (d : List Byte) : Memory := (List.range d.length).zipWith (fun i b => (a + i, b)) d
/-- "0123456789" repeated, n bytes. -/
def digits (n : Nat) : List Byte := (List.range n).map fun i => BitVec.ofNat 8 (0x30 + i % 10)
/-- Bytes 0x00, 0x01, ... -/
def count (n : Nat) : List Byte := (List.range n).map fun i => BitVec.ofNat 8 i
/-- An operand register the host has written. -/
def reg (v : Word) : OperandReg := ⟨v, true, true⟩
/-- Every operand written, no context, "0123456789" x 4 at 0x1000. -/
def demo (seed a n : Word) : State :=
  { State.reset with seedIn := reg seed, srcAddr := reg a, lenIn := reg n, mem := bytesAt 0x1000 (digits 40) }
/-- A context under seed 0 that holds the first n < 32 digits. -/
def held (n : Nat) : Context :=
  ⟨true, 0, laneInit 0, Vector.ofFn fun i => (digits 32).getD i.val 0, BitVec.ofNat 6 n, BitVec.ofNat 64 n⟩
/-- `demo` with that context. -/
def stream (n : Nat) (a len : Word) : State := { demo 0 a len with ctx := held n }
/-- The context of 95_test_vectors.md D-S5: "0123456789" x 4 under seed 0. -/
def forty : Context :=
  ⟨true, 0, ⟨0x634717ECA7971F5C, 0x22B02028FA83C110, 0x2B165A1CE1C25F52, 0x29AC695538594804⟩,
    Vector.ofFn fun i => ((digits 40).drop 32).getD i.val 0, 8, 40⟩
/-- The state a result goes on in. -/
def after : Result → Option State
  | .next t => some t
  | _ => none
/-- A state with a datapath record. -/
def withDp (dp : Datapath) : State := { State.reset with dp := dp }
/-- What a datapath operation leaves. -/
def dpAfter (i : Instr) (dp : Datapath) : Option Datapath := (after (exec i (withDp dp))).map (·.dp)

-- Decoding: each row's word written bit by bit from 30_encoding.md rules R72 and R82

theorem test_decode_init : decode [0b00000001, 0, 0, 0] = .ok .init ∧
    decodeTableWord 32 0b00000000000000000000000000000001 = some .init := by decide
theorem test_decode_write : decode [0b00000010, 0, 0, 0] = .ok .write ∧
    decodeTableWord 32 0b00000000000000000000000000000010 = some .write := by decide
theorem test_decode_finish : decode [0b00000011, 0, 0, 0] = .ok .finish ∧
    decodeTableWord 32 0b00000000000000000000000000000011 = some .finish := by decide
theorem test_decode_hash : decode [0b00000100, 0, 0, 0] = .ok .hash ∧
    decodeTableWord 32 0b00000000000000000000000000000100 = some .hash := by decide
theorem test_decode_mixing : decodeUop 0b00001 = .ok .laneInit ∧ decodeUop 0b00010 = .ok .shortInit ∧
    decodeUop 0b00011 = .ok .round ∧ decodeUop 0b00100 = .ok .merge ∧ decodeUop 0b00101 = .ok .converge ∧
    decodeUop 0b00110 = .ok .lenAdd ∧ decodeUop 0b00111 = .ok .avalanche := by decide
theorem test_decode_stripe_tail : decodeUop 0b01000 = .ok .stripe ∧ decodeUop 0b01001 = .ok .stripes ∧
    decodeUop 0b01010 = .ok .tail8 ∧ decodeUop 0b01011 = .ok .tail4 ∧ decodeUop 0b01100 = .ok .tail1 ∧
    decodeUop 0b01101 = .ok .tail := by decide
/-- D-E3 to D-E6, and the labels that name nothing. -/
theorem test_decode_illegal : decode [0, 0, 0, 0] = .error .reservedOpcode ∧ decode [5, 0, 0, 0] = .error .reservedOpcode ∧
    decode [1, 1, 0, 0] = .error .reservedBits ∧ decode [0xFF, 0, 0, 0] = .error .reservedOpcode ∧
    decode [1, 0, 0, 0x80] = .error .reservedBits ∧ decodeUop 0b00000 = .error .unnamedLabel ∧
    decodeUop 0b01110 = .error .unnamedLabel ∧ decodeUop 0b11111 = .error .unnamedLabel ∧
    decode [0b00100001] = .error .unnamedLabel ∧ decode [] = .error .badLength ∧
    decode [1, 0] = .error .badLength := by decide

-- Well-formedness: each check refuses an ill-formed term

theorem test_wf_params : Params.wf Params.default = true ∧ Params.wf { Params.default with xxhBase := 32 } = false ∧
    Params.wf { Params.default with addrW := 0 } = false ∧
    Params.wf { Params.default with addrW := 65 } = false ∧ Params.wf { Params.default with addrW := 1 } = true := by decide
theorem test_wf_window_access : Event.wf Params.default (.write 0x10 8 0) = true ∧
    Event.wf Params.default (.write 0x14 8 0) = false ∧ Event.wf Params.default (.write 0x02 4 0) = false ∧
    Event.wf Params.default (.read 0x10 2) = false ∧ Event.wf Params.default (.read 0x3C 4) = true ∧
    Event.wf Params.default (.read 0x40 4) = false := by decide
theorem test_wf_store : Event.wf { Params.default with addrW := 16 } (.store 0xFFFF 1) = true ∧
    Event.wf { Params.default with addrW := 16 } (.store 0x10000 1) = false ∧
    Event.wf ⟨0, 64, [⟨0, 16, .memory⟩, ⟨16, 16, .readSideEffects⟩]⟩ (.store 20 1) = false ∧
    Event.wf ⟨0, 64, [⟨0, 16, .memory⟩]⟩ (.store 16 1) = false := by decide
theorem test_wf_label : Event.wf Params.default (.uop 0x0D) = true ∧ Event.wf Params.default (.uop 0x0E) = false ∧
    Event.wf Params.default (.uop 0x21) = false := by decide
theorem test_wf_instr : (Instr.wf .init && Instr.wf .tail) = true := by decide
theorem test_memory_not_wf : Memory.wf [(1, 5), (1, 6)] = false ∧ Memory.wf [(1, 0)] = false ∧
    Memory.wf [(1, 5), (2, 6)] = true := by decide

-- Commands

/-- D-S1 with the LANE_INIT row of seed 10. -/
theorem test_init : (after (exec .init (demo 10 0 0))).map
      (fun t => (t.ctx.quad, t.ctx.seed, t.ctx.bufLen, t.ctx.totalLen, streamState t.ctx, statusWord t)) =
    some (⟨0x60EA27EEADC0B5E0, 0xC2B2AE3D27D4EB59, 0x0A, 0x61C8864E7A143583⟩, 10, 0, 0, .empty, 0x00000002) := by
  decide +kernel
/-- D-E13: the model's fault, recorded (log 4). -/
theorem test_init_unwritten : (after (exec .init State.reset)).map (fun t => (t.modelFaults, t.ctx.valid)) =
    some ([.operand .seedIn], true) := by decide +kernel
/-- D-S5 after D-S3. -/
theorem test_write : (after (exec .write (stream 20 0x1014 20))).map
      (fun t => (t.ctx.quad, carried t.ctx, t.ctx.bufLen, t.ctx.totalLen)) =
    some (forty.quad, [0x32, 0x33, 0x34, 0x35, 0x36, 0x37, 0x38, 0x39], 8, 40) := by decide +kernel
/-- D-E7 and D-E8: ADDR_W = 16, the range ends one byte past the space, or at it. -/
theorem test_write_range : (after (exec .write
        { stream 0 0xFFF0 0x20 with params := { Params.default with addrW := 16 } })).map (fun t => (t.err, t.ctx)) =
      some (.addrRange, held 0) ∧
    (after (exec .write { stream 0 0xFFF0 0x10 with params := { Params.default with addrW := 16 } })).map
      (fun t => (t.err, t.ctx.totalLen)) = some (.none, 16) := by decide +kernel
/-- D-S6. -/
theorem test_finish : (after (exec .finish { demo 0 0 0 with ctx := forty })).map
      (fun t => (t.digest, statusWord t, t.ctx)) = some (0xCA6FC80CBDE1A931, 0x00000006, forty) := by decide +kernel
/-- D-E2. -/
theorem test_finish_no_context :
    (after (exec .finish State.reset)).map statusWord = some 0x00000020 := by decide +kernel
/-- D-X23: 33 bytes of 0xFF. -/
theorem test_hash_ones : (after (exec .hash
      { demo 0 0x1000 33 with mem := bytesAt 0x1000 (List.replicate 33 0xFF) })).map
      (fun t => (t.digest, statusWord t)) = some (0xF4291792CF8FDB43, 0x00000004) := by decide +kernel
/-- D-X17: 32 bytes 0x00 .. 0x1F (the first one unlisted), a seed that wraps. -/
theorem test_hash_seed : (after (exec .hash
      { demo 0xFFFFFFFFFFFFFFFF 0x1001 32 with mem := bytesAt 0x1002 ((count 32).drop 1) })).map (·.digest) =
    some 0x35220DFDB7D4D7C9 := by decide +kernel

-- The host's accesses

/-- D-E5: RSVD not zero although OPC is INIT. -/
theorem test_illegal_command : (after (runEvent (w32 Params.default offCmd 0x00000101) State.reset)).map statusWord =
    some 0x00000010 := by decide +kernel
/-- D-E14: the model's fault, recorded (log 4). -/
theorem test_digest_before_result :
    (after (runEvent (r64 Params.default offDigest) State.reset)).map (·.modelFaults) = some [.digest] := by decide +kernel
/-- 20_memory.md rule R61: the upper half alone leaves the register unwritten. -/
theorem test_half_write : (after (runEvent (w32 Params.default 0x1C 5) State.reset)).map
    (fun t => (t.lenIn, t.lenIn.written)) = some (⟨0x0000000500000000, false, true⟩, false) := by decide +kernel
/-- L3-1, step 8: WAIT reads 0x00000006. -/
theorem test_wait : (after (runEvent .wait { demo 0 0 0 with ctx := forty, digestValid := true })).map
    (fun t => t.reads) = some [⟨0x04, 4, 0x00000006⟩] := by decide +kernel

-- Datapath operations: the rows of 95_test_vectors.md 2.1 and 2.2

theorem test_lane_init : (dpAfter .laneInit { Datapath.idle with seed := 0xFFFFFFFFFFFFFFFF }).map (·.quad) =
    some ⟨0x60EA27EEADC0B5D5, 0xC2B2AE3D27D4EB4E, 0xFFFFFFFFFFFFFFFF, 0x61C8864E7A143578⟩ := by decide +kernel
theorem test_short_init : (dpAfter .shortInit { Datapath.idle with seed := 0xFFFFFFFFFFFFFFFF }).map (·.acc) =
    some 0x27D4EB2F165667C4 := by decide +kernel
theorem test_round : (dpAfter .round { Datapath.idle with acc := 0xFFFFFFFFFFFFFFFF, word := 0xFFFFFFFFFFFFFFFF }).map
    (·.acc) = some 0xE2BA51F296AF98A7 := by decide +kernel
theorem test_merge_acc : (dpAfter .merge { Datapath.idle with acc := 1 }).map (·.acc) = some 0x24234429489E78EA := by
  decide +kernel
theorem test_merge_lane : (dpAfter .merge { Datapath.idle with word := 1 }).map (·.acc) = some 0x9D049A611F451521 := by
  decide +kernel
theorem test_converge : (dpAfter .converge { Datapath.idle with quad := ⟨1, 2, 3, 4⟩ }).map (·.acc) =
    some 0xCBD45F8DA9D14190 := by decide +kernel
theorem test_len_add : (dpAfter .lenAdd { Datapath.idle with acc := 0x27D4EB2F165667C5, total := 1 }).map (·.acc) =
    some 0x27D4EB2F165667C6 := by decide +kernel
theorem test_avalanche : (dpAfter .avalanche { Datapath.idle with acc := 0xFFFFFFFFFFFFFFFF }).map (·.acc) =
    some 0x100AB62DAADD9289 := by decide +kernel
theorem test_stripe : (dpAfter .stripe
      { Datapath.idle with quad := laneInit 0, blk := Vector.ofFn fun i => BitVec.ofNat 8 i.val }).map (·.quad) =
    some ⟨0xF4B53B57406B5E99, 0xC3D34B511FC32561, 0xCB26C007C8A1553F, 0x9A44D001A7F91C07⟩ := by decide +kernel
theorem test_stripes : (dpAfter .stripes { Datapath.idle with quad := laneInit 0, bytes := count 33 }).map
      (fun dp => (dp.quad, dp.pos)) =
    some (⟨0xF4B53B57406B5E99, 0xC3D34B511FC32561, 0xCB26C007C8A1553F, 0x9A44D001A7F91C07⟩, 32) := by decide +kernel
theorem test_stripes_short : (dpAfter .stripes { Datapath.idle with quad := ⟨1, 2, 3, 4⟩, bytes := count 31, pos := 7 }).map
      (fun dp => (dp.quad, dp.pos)) = some (⟨1, 2, 3, 4⟩, 0) := by decide +kernel
theorem test_tail8 : (dpAfter .tail8 { Datapath.idle with acc := 0x27D4EB2F165667C5, word := 0x0706050403020100 }).map
      (·.acc) = some 0x79FD9AA38485FF74 := by decide +kernel
theorem test_tail4 : (dpAfter .tail4 { Datapath.idle with acc := 0x27D4EB2F165667C9, word32 := 0x34333231 }).map
      (·.acc) = some 0x40FE0B57F39288C9 := by decide +kernel
theorem test_tail4_zero_extends : (dpAfter .tail4 { Datapath.idle with word32 := 0xFFFFFFFF }).map (·.acc) =
    some 0xC412DD1A87DA8451 := by decide +kernel
theorem test_tail1 : (dpAfter .tail1 { Datapath.idle with acc := 0x27D4EB2F165667C6, byte := 0x31 }).map (·.acc) =
    some 0x9B376CCDB889B040 := by decide +kernel
theorem test_tail1_zero_extends : (dpAfter .tail1 { Datapath.idle with byte := 0xFF }).map (·.acc) =
    some 0x6F974583107FD1D8 := by decide +kernel
theorem test_tail : (dpAfter .tail { Datapath.idle with acc := 0x27D4EB2F165667E4, bytes := count 31 }).map (·.acc) =
    some 0x3AB75224DA16414C := by decide +kernel
theorem test_tail_empty : (dpAfter .tail { Datapath.idle with acc := 5 }).map (·.acc) = some 5 := by decide +kernel

-- Witnesses: a state and operands that meet the hypotheses of each statement, its clauses at their boundary values

/-- A machine about to take one event. -/
def about (e : Event) (s : State) : State := { s with pending := [e] }
/-- The CMD write of a command word. -/
def cmd (w : Word32) : Event := w32 Params.default offCmd w

theorem not_init_of_cmd {s : State} {w : Word32} {rest : List Event} {i j : Instr} (hp : s.pending = cmd w :: rest)
    (hd : decodeCmd w = .ok i) (hij : i ≠ j) : ¬ NextCommand s j := by
  rintro ⟨a, k, v, r, h1, -, h3⟩
  rw [hp] at h1
  cases h1
  have : loHalf (w.setWidth 64) = w := by simp
  rw [this, hd] at h3
  cases h3
  exact hij rfl

theorem not_reset_of_cmd {s : State} {w : Word32} {rest : List Event} (hp : s.pending = cmd w :: rest) :
    ¬ NextReset s := by
  rintro ⟨r, h⟩
  rw [hp] at h
  cases h

theorem test_witness_ResetEventResetsBlock : (about .reset (stream 31 0 0)).pending = .reset :: [] := rfl

theorem test_witness_StepKeepsInvariant : (about (cmd 0x00000001) (demo 0 0 0)).Inv ∧
    (∃ t, step (about (cmd 0x00000001) (demo 0 0 0)) = .next t) ∧ (stream 31 0x1000 1).Inv :=
  ⟨by decide +kernel, ⟨_, rfl⟩, by decide +kernel⟩

theorem test_witness_TotalLenNeverFalls : (let s := about (cmd 0x00000002) (stream 20 0x1014 20)
      s.ctx.valid = true ∧ (∃ t, step s = .next t) ∧ ¬ NextCommand s .init ∧ ¬ NextReset s) ∧
    (∃ t, exec .init (demo 0 0 0) = .next t) ∧
    (after (exec .write (stream 31 0x1000 1))).map (·.err) = some .none ∧
    (after (exec .write (stream 31 0xFFFFFFFFFFFFFFFF 2))).map (·.err) = some .addrRange :=
  ⟨⟨rfl, ⟨_, rfl⟩, not_init_of_cmd rfl (i := .write) rfl (by decide), not_reset_of_cmd rfl⟩, ⟨_, rfl⟩,
    by decide +kernel, by decide +kernel⟩

theorem test_witness_ValidBitsHaveTheirWriters :
    (∃ t, step (about (cmd 0x00000001) (demo 0 0 0)) = .next t ∧ (demo 0 0 0).ctx.valid = false ∧ t.ctx.valid = true) ∧
    (∃ t, step (about .reset (stream 0 0 0)) = .next t ∧ (stream 0 0 0).ctx.valid = true ∧ t.ctx.valid = false) ∧
    (∃ t, step (about (cmd 0x00000003) (stream 0 0 0)) = .next t ∧ (stream 0 0 0).digestValid = false ∧
      t.digestValid = true) ∧
    (∃ t, step (about .reset { stream 0 0 0 with digestValid := true }) = .next t ∧ t.digestValid = false) :=
  ⟨⟨_, rfl, rfl, rfl⟩, ⟨_, rfl, rfl, rfl⟩, ⟨_, rfl, rfl, rfl⟩, ⟨_, rfl, rfl⟩⟩

theorem test_witness_OnlyFinishAndHashWriteDigest :
    ((after (step (about (cmd 0x00000004) (demo 0 0x1000 40)))).map fun t => decide (t.digest ≠ (demo 0 0 0).digest)) =
      some true ∧
    ((after (step (about .reset { demo 0 0 0 with digest := 5 }))).map fun t => decide (t.digest ≠ 5)) = some true := by
  decide +kernel

theorem test_witness_BlockNeverWritesMemory : (∃ t, exec .hash (demo 0 0x1000 2) = .next t) ∧
    (∃ t, step (about (cmd 0x00000002) (stream 0 0x1000 2)) = .next t) ∧
    ∀ a b rest, (about (cmd 0x00000002) (stream 0 0x1000 2)).pending ≠ .store a b :: rest :=
  ⟨⟨_, rfl⟩, ⟨_, rfl⟩, fun _ _ _ h => by cases h⟩

theorem test_witness_StepKeepsParams : ∃ t, step (about (cmd 0x00000003) (stream 0 0 0)) = .next t := ⟨_, rfl⟩

theorem test_witness_BufferTailIsUnobservable : SameButTail (stream 31 0 0)
      { stream 31 0 0 with ctx := { held 31 with buf := (held 31).buf.set 31 0xAA } } ∧
    (held 31).buf.set 31 0xAA ≠ (held 31).buf :=
  ⟨⟨rfl, by decide +kernel⟩, by decide +kernel⟩

theorem test_witness_CommandsReadOnlyTheirRange :
    (∀ i < (stream 0 0x1000 2).lenIn.value.toNat,
      Memory.read [(0x1000, 0x30), (0x1001, 0x31), (0x1002, 0xFF)] ((stream 0 0x1000 2).srcAddr.value.toNat + i) =
        Memory.read (stream 0 0x1000 2).mem ((stream 0 0x1000 2).srcAddr.value.toNat + i)) ∧
    (∃ t, exec .hash (stream 0 0x1000 2) = .next t) ∧ ∃ t, exec .write (stream 0 0x1000 2) = .next t :=
  ⟨by decide +kernel, ⟨_, rfl⟩, ⟨_, rfl⟩⟩

theorem test_witness_DecodeInvertsEncode : Instr.wf .hash = true ∧ Instr.wf .tail = true := by decide

theorem test_witness_StepRunsWrittenCommand : let s := about (.write offCmd 8 0xFFFFFFFF00000004) (demo 0 0x1000 2)
    s.pending = .write (s.params.xxhBase + offCmd) 8 0xFFFFFFFF00000004 :: [] ∧ s.busy = false ∧
      decodeCmd (loHalf 0xFFFFFFFF00000004) = .ok .hash := ⟨rfl, rfl, rfl⟩

theorem test_witness_StepRunsLabelledOperation :
    (about (.uop 0x0D) State.reset).pending = .uop 0x0D :: [] ∧ decodeLabelByte 0x0D = .ok .tail := ⟨rfl, rfl⟩

theorem test_witness_FetchWordRunsDecodedInstruction : decodeTableWord 32 0x00000004 = some .hash ∧
    decodeTableWord 8 0x0D = some .tail := by decide

theorem test_witness_IllegalWordOnlySetsErr : let s := about (cmd 0x00000005) (stream 31 0 0)
    s.pending = .write (s.params.xxhBase + offCmd) 4 0x00000005 :: [] ∧ s.busy = false ∧
      decodeCmd (loHalf 0x00000005) = .error .reservedOpcode := ⟨rfl, rfl, rfl⟩

theorem test_witness_CommandWhileBusyRefused : let s := { demo 0 0 0 with busy := true }
    (about (cmd 0x00000001) s).busy = true ∧
      (about (cmd 0x00000001) s).pending = .write (s.params.xxhBase + offCmd) 4 0x00000001 :: [] ∧
      (about (w64 Params.default offLenIn 7) s).pending = w64 s.params (operandOffset .lenIn) 7 :: [] := ⟨rfl, rfl, rfl⟩

/-- Each operand register written by one half only; and D-E15. -/
theorem test_witness_UnspecifiedUsesAreRecorded :
    (∃ t, exec .init { demo 0 0 0 with seedIn := ⟨5, true, false⟩ } = .next t) ∧
    (∃ t, exec .write State.reset = .next t) ∧
    ((after (exec .write { stream 0 0x1000 1 with lenIn := ⟨1, false, true⟩, srcAddr := ⟨0x1000, true, false⟩ })).map
      (·.modelFaults)) = some [.operand .srcAddr, .operand .lenIn] ∧
    ((after (exec .write { stream 0 0 0 with srcAddr := .unwritten })).map (·.modelFaults)) = some [] ∧
    (∃ t, exec .finish (stream 0 0 0) = .next t) ∧
    (∃ t, exec .hash { demo 0 0x1000 1 with seedIn := ⟨5, true, false⟩ } = .next t) ∧
    (∃ t, step (about .reset { demo 0 0 0 with modelFaults := [.digest] }) = .next t ∧ t.modelFaults = [.digest]) :=
  ⟨⟨_, rfl⟩, ⟨_, rfl⟩, by decide +kernel, by decide +kernel, ⟨_, rfl⟩, ⟨_, rfl⟩, ⟨_, rfl, rfl⟩⟩

theorem test_witness_NoContextError : State.reset.ctx.valid = false ∧ ∃ t, exec .hash (demo 0 0 0) = .next t :=
  ⟨rfl, ⟨_, rfl⟩⟩

/-- D-E10: TOTAL_LEN = 2^64 - 10 and ten more bytes. -/
theorem test_witness_LenOverflowError :
    (let s := { stream 0 0 10 with ctx := { held 22 with totalLen := 0xFFFFFFFFFFFFFFF6 } }
     s.ctx.valid = true ∧ s.srcAddr.value.toNat + s.lenIn.value.toNat ≤ 2 ^ s.params.addrW ∧
      s.ctx.totalLen.toNat + s.lenIn.value.toNat > 2 ^ 64 - 1) ∧
    ∃ t, exec .hash (demo 0 0 0) = .next t :=
  ⟨by decide +kernel, ⟨_, rfl⟩⟩

/-- One byte past the top of the space. -/
theorem test_witness_AddrRangeError : let s := stream 0 0xFFFFFFFFFFFFFFFF 2
    s.lenIn.value ≠ 0 ∧ s.srcAddr.value.toNat + s.lenIn.value.toNat > 2 ^ s.params.addrW ∧ s.ctx.valid = true := by
  decide +kernel

theorem test_witness_FailedCommandIsPrecise :
    ∃ t, exec .write State.reset = .next t ∧ t.err ≠ .none := ⟨_, rfl, by decide⟩

theorem test_witness_UnreadableRangeStops :
    (let s := { stream 0 0xF 2 with params := ⟨0, 64, [⟨0, 16, .memory⟩, ⟨16, 1, .readSideEffects⟩]⟩ }
     s.srcAddr.value.toNat + s.lenIn.value.toNat ≤ 2 ^ s.params.addrW ∧
      (∃ i < s.lenIn.value.toNat,
        sourceKind s.params.regions (s.srcAddr.value.toNat + i) = some .readSideEffects) ∧
      s.ctx.valid = true ∧ s.ctx.totalLen.toNat + s.lenIn.value.toNat ≤ 2 ^ 64 - 1) ∧
    (let s := { stream 0 0xF 2 with params := ⟨0, 64, [⟨0, 16, .memory⟩]⟩ }
     s.srcAddr.value.toNat + s.lenIn.value.toNat ≤ 2 ^ s.params.addrW ∧
      (∀ i < s.lenIn.value.toNat,
        sourceKind s.params.regions (s.srcAddr.value.toNat + i) ≠ some .readSideEffects) ∧
      (∃ i < s.lenIn.value.toNat, sourceKind s.params.regions (s.srcAddr.value.toNat + i) = none) ∧
      s.ctx.valid = true ∧ s.ctx.totalLen.toNat + s.lenIn.value.toNat ≤ 2 ^ 64 - 1) := by
  refine ⟨⟨by decide +kernel, ⟨1, by decide, by decide⟩, by decide, by decide +kernel⟩, ?_⟩
  exact ⟨by decide +kernel, by decide +kernel, ⟨1, by decide, by decide⟩, by decide, by decide +kernel⟩

theorem test_witness_EmptyWriteIsNoOp : let s := { stream 31 0 0 with srcAddr := .unwritten }
    s.ctx.valid = true ∧ s.ctx.bufLen.toNat < 32 ∧ s.lenIn.value = 0 := by decide

/-- The last byte of a stripe, and a chunk that brings TOTAL_LEN to 2^64 - 1 (D-E11). -/
theorem test_witness_WriteAbsorbsChunk :
    (let s := stream 31 0xFFFFFFFFFFFFFFFF 1
     s.ctx.valid = true ∧ s.ctx.bufLen.toNat < 32 ∧ ChunkReady s ∧
      s.ctx.totalLen.toNat + s.lenIn.value.toNat ≤ 2 ^ 64 - 1) ∧
    (let s := { stream 0 0 9 with ctx := { held 22 with totalLen := 0xFFFFFFFFFFFFFFF6 } }
     ChunkReady s ∧ s.ctx.totalLen.toNat + s.lenIn.value.toNat = 2 ^ 64 - 1) := by
  unfold ChunkReady RangeReady
  decide +kernel

theorem test_witness_WriteFrame : (∃ t, exec .write (stream 31 0x1000 1) = .next t) ∧
    ∃ t, exec .write State.reset = .next t := ⟨⟨_, rfl⟩, ⟨_, rfl⟩⟩

theorem test_witness_FinishWritesDigest : (stream 31 0 0).ctx.valid = true ∧ State.reset.ctx.valid = false := by decide

theorem test_witness_HashWritesDigest : ChunkReady (demo 0 0xFFFFFFFFFFFFFFFE 2) ∧ ChunkReady { demo 0 0 0 with srcAddr := .unwritten } := by
  unfold ChunkReady RangeReady
  decide +kernel

theorem test_witness_HashFrame : (∃ t, exec .hash (demo 0 0x1000 2) = .next t) ∧
    ∃ t, exec .hash (demo 0 0xFFFFFFFFFFFFFFFF 2) = .next t ∧ t.err ≠ .none := ⟨⟨_, rfl⟩, ⟨_, rfl, by decide⟩⟩

theorem test_witness_OneShotPathByLength : (count 31).length < 32 ∧ 32 ≤ (count 32).length := by decide

theorem test_witness_StreamStateTransitions : (∃ t, exec .init (demo 0 0 0) = .next t) ∧
    (streamState (held 0) = .empty ∧ streamState (held 1) = .buffering ∧ streamState (held 31) = .buffering ∧
      streamState forty = .accumulating ∧ streamState Context.reset = .uninit) ∧
    ((after (exec .write (stream 0 0 0))).map (·.err) = some .none ∧
      (after (exec .write (stream 0 0x1000 1))).map (·.err) = some .none ∧
      (after (exec .write (stream 0 0x1000 31))).map (·.err) = some .none ∧
      (after (exec .write (stream 0 0x1000 32))).map (·.err) = some .none ∧
      (after (exec .write (stream 1 0x1000 30))).map (·.err) = some .none ∧
      (after (exec .write (stream 1 0x1000 31))).map (·.err) = some .none ∧
      (after (exec .write { demo 0 0x1000 1 with ctx := forty })).map (·.err) = some .none) ∧
    (∃ t, exec .finish (stream 1 0 0) = .next t) ∧ ∃ t, exec .write State.reset = .next t :=
  ⟨⟨_, rfl⟩, by decide +kernel, by decide +kernel, ⟨_, rfl⟩, ⟨_, rfl⟩⟩

theorem test_witness_WriteExtendsStream : StreamHolds (stream 31 0x1000 1).ctx 0 (digits 31) ∧
    ChunkReady (stream 31 0x1000 1) ∧ (digits 31).length + (stream 31 0x1000 1).lenIn.value.toNat < 2 ^ 64 := by
  unfold StreamHolds ChunkReady RangeReady
  decide +kernel

theorem test_witness_StepKeepsStream : (let s := about (cmd 0x00000002) (stream 31 0x1000 1)
    AbsentOrStream s.ctx ∧ s.ctx.valid = true ∧ ∃ t, step s = .next t) ∧
    AbsentOrStream (about (cmd 0x00000001) (demo 0 0 0)).ctx ∧ ∃ t, step (about (cmd 0x00000001) (demo 0 0 0)) = .next t := by
  refine ⟨⟨fun _ => ⟨0, digits 31, ?_⟩, rfl, ⟨_, rfl⟩⟩, (fun h => by cases h), ⟨_, rfl⟩⟩
  unfold StreamHolds
  decide +kernel

theorem test_witness_FinishOfStreamIsXxh64 : StreamHolds forty 0 (digits 40) := by
  unfold StreamHolds
  decide +kernel

theorem test_witness_StreamedDigestEqualsOneShot :
    let calls : List HostCall := [.chunk 0x1000 2, .query, .oneshot 0x1001 1 7, .chunk 0 0]
    let s := { State.reset with mem := bytesAt 0x1000 (digits 2), pending := streamProgram Params.default 0 calls }
    s.busy = false ∧ s.pending = streamProgram s.params 0 calls ∧ (∀ c ∈ calls, HostCall.ready s c) ∧
      (streamBytes s.mem calls).length < 2 ^ 64 := by
  refine ⟨rfl, rfl, ?_, by decide +kernel⟩
  simp only [List.forall_mem_cons, HostCall.ready, RangeReady]
  refine ⟨?_, trivial, ?_, ?_, by simp⟩ <;> decide +kernel

theorem test_witness_HashPseudoReadsXxh64 :
    let s := { demo 1 2 3 with pending := pseudoHash Params.default 0x1000 2 0 }
    s.busy = false ∧ s.pending = pseudoHash s.params 0x1000 2 0 ∧ ((0x2 : Word) ≠ 0 → RangeReady s 0x1000 2) := by
  unfold RangeReady
  exact ⟨rfl, rfl, by decide +kernel⟩

theorem test_witness_ReadOnlyAndReservedOffsets : ((4 = 4 ∧ offStatus % 4 = 0) ∧ offStatus < windowSize) ∧
    ((8 = 8 ∧ offDigest % 8 = 0) ∧ offDigest ≤ offDigest) ∧ (0x3C % 4 = 0 ∧ 0x3C < windowSize ∧ offDigest ≤ 0x3C) ∧
    (0x28 % 8 = 0 ∧ 0x28 < windowSize) ∧ offCmd % 4 = 0 := by decide

theorem test_witness_IllegalAccessRefused : (0x3F < windowSize ∧ ¬ ((4 = 4 ∧ 0x3F % 4 = 0) ∨ (4 = 8 ∧ 0x3F % 8 = 0))) ∧
    (offStatus < windowSize ∧ ¬ ((8 = 4 ∧ offStatus % 4 = 0) ∨ (8 = 8 ∧ offStatus % 8 = 0))) := by decide

theorem test_witness_DigestReadNeedsResult : State.reset.busy = false ∧ State.reset.digestValid = false ∧
    { demo 0 0 0 with digestValid := true }.busy = false ∧ { demo 0 0 0 with digestValid := true }.digestValid = true := by
  decide

theorem test_witness_HostStoreIsRead : let s := about (.store 0xFFFFFFFFFFFFFFFF 0) (demo 0 0 0)
    Memory.wf s.mem = true ∧ s.pending = .store 0xFFFFFFFFFFFFFFFF 0 :: [] ∧ 0xFFFFFFFFFFFFFFFF < 2 ^ s.params.addrW ∧
      sourceKind s.params.regions 0xFFFFFFFFFFFFFFFF = some .memory ∧
      ∀ r ∈ ({ s with unobserved := [(0xFFFFFFFFFFFFFFFE, 1)] } : State).unobserved,
        0xFFFFFFFFFFFFFFFF < r.1 ∨ r.1 + r.2 ≤ 0xFFFFFFFFFFFFFFFF := by decide +kernel

theorem test_witness_StatusLayout : State.reset.busy = false ∧ (stream 31 0 0).busy = false := ⟨rfl, rfl⟩

/-- The last byte of the range of a HASH, and of one with LEN_IN written by half; a WRITE without a context, its SRC_ADDR or its
LEN_IN written by half. -/
theorem test_witness_SourceStability : let s := demo 0 0x1000 2
    let s1 := { s with pending := [w32 s.params offCmd 0x00000004, .store 0x1001 7] }
    let s2 := { s with pending := [w32 s.params offCmd 0x00000004, .wait, .store 0x1001 7] }
    s.busy = false ∧ Memory.wf s.mem = true ∧ s.srcAddr.value.toNat ≤ 0x1001 ∧
      0x1001 < s.srcAddr.value.toNat + s.lenIn.value.toNat ∧ 0x1001 < 2 ^ s.params.addrW ∧
      sourceKind s.params.regions 0x1001 = some .memory ∧ s.srcAddr.written = true ∧ s.lenIn.written = true ∧
      (∃ t, step s1 = .next t) ∧ (∃ t, steps 2 s2 = .next t) ∧
      (let u := { s1 with lenIn := ⟨2, true, false⟩ }; u.lenIn.written = false ∧ ∃ t, step u = .next t) ∧
      (let u := { s with srcAddr := ⟨0x1001, true, false⟩, pending := [w32 s.params offCmd 0x00000002, .store 0x1001 7] }
       u.srcAddr.written = false ∧ u.ctx.valid = false ∧ ∃ t, step u = .next t) ∧
      (let u := { s with lenIn := ⟨2, true, false⟩, pending := [w32 s.params offCmd 0x00000002, .store 0x1001 7] }
       u.lenIn.written = false ∧ u.ctx.valid = false ∧ ∃ t, step u = .next t) :=
  ⟨rfl, by decide +kernel, by decide +kernel, by decide +kernel, by decide +kernel, by decide +kernel, rfl, rfl, ⟨_, rfl⟩,
    ⟨_, rfl⟩, ⟨rfl, _, rfl⟩, ⟨rfl, rfl, _, rfl⟩, ⟨rfl, rfl, _, rfl⟩⟩

theorem test_witness_RotlIsCircular : (0 < 1 ∧ 1 < 64) ∧ 0 < 63 ∧ 63 < 64 := by decide

theorem test_witness_LittleEndianWords : 24 + 8 ≤ (count 32).length ∧ 28 + 4 ≤ (count 32).length := by decide

theorem test_witness_DatapathTouchesNoBlockState : (stream 31 0 0).dp = State.reset.dp ∧
    Instr.tail ≠ .init ∧ Instr.tail ≠ .write ∧ Instr.tail ≠ .finish ∧ Instr.tail ≠ .hash := by decide

theorem test_witness_DatapathCompositionIsXxh64 :
    (let s := withDp { Datapath.idle with total := 31, bytes := count 31 }
     s.dp.total = BitVec.ofNat 64 s.dp.bytes.length ∧ s.dp.bytes.length < 32) ∧
    (let s := withDp { Datapath.idle with total := 32, bytes := count 32 }
     s.dp.total = BitVec.ofNat 64 s.dp.bytes.length ∧ 32 ≤ s.dp.bytes.length) := by decide

theorem test_witness_TailCascade : 8 ≤ (count 8).length ∧ (4 ≤ (count 4).length ∧ (count 4).length < 8) ∧
    (4 ≤ (count 7).length ∧ (count 7).length < 8) ∧ (count 2).length < 3 := by decide

theorem test_witness_StripesLoop : (count 31).length < 32 ∧ 32 ≤ (count 32).length := by decide

theorem test_witness_PrimeMultiplicationIsBijective : prime3 = prime1 ∨ prime3 = prime2 ∨ prime3 = prime3 := .inr (.inr rfl)

theorem test_witness_StripesChunkingLaw : (count 64).length % 32 = 0 := by decide

theorem test_witness_TailClassCounts : ((count 27).length < 32 ∧ (count 27).length % 8 < 4) ∧
    ((count 28).length < 32 ∧ 4 ≤ (count 28).length % 8) := by decide

end Sys2Proof.Tests
end

section
/-! The parameters over a step (00_scope.md rule R8), the circular rotation (rule R11), and the little-endian words as
sums over their bytes (rule R12). -/
namespace Sys2Proof.Machine

/-- No instruction writes the parameters. -/
theorem exec_params {i : Instr} {s t : State} (h : exec i s = .next t) : t.params = s.params := by
  cases i with
  | init => rw [execInit_next h]; rfl
  | write =>
    obtain ⟨-, rfl⟩ | ⟨-, ⟨-, -, rfl⟩ | ⟨-, rfl⟩ | ⟨-, rfl⟩⟩ := execWrite_next h <;> simp
  | finish => obtain ⟨-, rfl⟩ | ⟨-, rfl⟩ := execFinish_next h <;> rfl
  | hash => obtain ⟨-, -, rfl⟩ | rfl := execHash_next h <;> rfl
  | _ => cases h; rfl

/-- No event writes the parameters. -/
theorem runEvent_params {e : Event} {s t : State} (h : runEvent e s = .next t) : t.params = s.params := by
  obtain ⟨_, _, _, _, -, -, -, -, h⟩ | ⟨-, rfl⟩ | ⟨_, _, _, rfl⟩ | ⟨_, _, _, _, rfl | rfl⟩ | ⟨-, -, rfl⟩ |
    ⟨_, _, -, rfl⟩ | ⟨-, rfl⟩ | ⟨_, rfl⟩ := runEvent_next h
  · exact (exec_params h).trans (acceptCommand_params _ s)
  all_goals rfl

/-- In the range of rule R11 the model's rotation is the library's. -/
theorem rotl64_eq_rotateLeft (a : Word) {r : Nat} (h : r < 64) : rotl64 a r = a.rotateLeft r := by
  rw [BitVec.rotateLeft_def, Nat.mod_eq_of_lt h]; rfl

/-- Bit i of a rotation to the left by r comes from r places below, around the word's end. -/
theorem getLsbD_rotl64 (a : Word) {r i : Nat} (hr : r < 64) (hi : i < 64) :
    (rotl64 a r).getLsbD i = a.getLsbD ((i + (64 - r)) % 64) := by
  rw [rotl64_eq_rotateLeft a hr, BitVec.getLsbD_rotateLeft_of_le hr, Bool.cond_decide]
  split
  · rw [show (i + (64 - r)) % 64 = 64 - r + i by omega]
  · rw [show (i + (64 - r)) % 64 = i - r by omega, decide_eq_true hi, Bool.true_and]

/-- The little-endian value weighs byte k by 2^(8k). -/
theorem leNat_eq_sum (d : List Byte) :
    leNat d = ((List.range d.length).map fun k => (d.getD k 0).toNat * 2 ^ (8 * k)).sum := by
  induction d with
  | nil => rfl
  | cons b d ih =>
    rw [leNat, ih, List.length_cons, List.range_succ_eq_map, List.map_cons, List.map_map, List.sum_cons,
      ← List.sum_map_mul_left]
    refine congrArg₂ (· + ·) (by simp) (congrArg List.sum (List.map_congr_left fun k _ => ?_))
    simp only [Function.comp_apply, Nat.succ_eq_add_one, List.getD_cons_succ]
    ring

/-- The n bytes from index i on, where they exist, as a sum over their indices. -/
theorem leNat_slice (d : List Byte) {i n : Nat} (h : i + n ≤ d.length) :
    leNat ((d.drop i).take n) = ((List.range n).map fun k => (d.getD (i + k) 0).toNat * 2 ^ (8 * k)).sum := by
  have hlen : ((d.drop i).take n).length = n := by simp; omega
  rw [leNat_eq_sum, hlen]
  refine congrArg List.sum (List.map_congr_left fun k hk => ?_)
  have hk : k < n := List.mem_range.1 hk
  simp [List.getD_eq_getElem?_getD, hk]

/-- The value of at most n bytes fits n bytes, so a word of 8 * n bits holds all of it. -/
theorem leNat_take_lt (d : List Byte) (n : Nat) : leNat (d.take n) < 2 ^ (8 * n) :=
  calc leNat (d.take n) < 256 ^ (d.take n).length := leNat_lt _
    _ ≤ 256 ^ n := Nat.pow_le_pow_right (by decide) (List.length_take_le n d)
    _ = 2 ^ (8 * n) := by rw [Nat.pow_mul]

@[simp] theorem le64_toNat (d : List Byte) (i : Nat) : (le64 d i).toNat = leNat ((d.drop i).take 8) :=
  (BitVec.toNat_ofNat _ _).trans (Nat.mod_eq_of_lt (leNat_take_lt _ 8))

@[simp] theorem le32_toNat (d : List Byte) (i : Nat) : (le32 d i).toNat = leNat ((d.drop i).take 4) :=
  (BitVec.toNat_ofNat _ _).trans (Nat.mod_eq_of_lt (leNat_take_lt _ 4))

/-- Settles O47: the library's rotation, read bit by bit. -/
theorem rotlIsCircular : Obligations.RotlIsCircular := fun a _ _ hr =>
  ⟨rotl64_eq_rotateLeft a hr, fun _ hi => getLsbD_rotl64 a hr hi⟩

/-- Settles O48: neither word loses a bit of its slice's value, which is the sum over the slice. -/
theorem littleEndianWords : Obligations.LittleEndianWords := fun d i =>
  ⟨fun h => (le64_toNat d i).trans (leNat_slice d h), fun h => (le32_toNat d i).trans (leNat_slice d h)⟩

/-- Settles O9: an idle step changes nothing, and no event writes the parameters. -/
theorem stepKeepsParams : Obligations.StepKeepsParams := by
  intro s t h
  obtain ⟨-, rfl⟩ | ⟨e, rest, -, he⟩ := step_next h
  · rfl
  · exact (runEvent_params he).trans (takeEvent_params rest s)

end Sys2Proof.Machine
end

section
/-! What a step does to the context (10_state.md rule R30) and to the digest (rule R28), said once for all events; the
invariants and the writers of the valid bits follow from it. -/
namespace Sys2Proof.Machine

/-- Absorbing reads the context and the counter of free values alone. -/
theorem absorb_ctx_congr {s u : State} (hc : u.ctx = s.ctx) (hf : u.freeCount = s.freeCount) (d : List Byte) :
    (absorb u d).ctx = (absorb s d).ctx := by
  unfold absorb
  rw [hc, hf]
  split <;> rfl

/-- What a step may do to the context, DIGEST and DIGEST_VALID: nothing; a reset; an INIT; a WRITE that completes; a FINISH or
HASH that completes. -/
inductive BlockEffect (s t : State) : Prop
  | quiet (ctx : t.ctx = s.ctx) (digest : KeepsDigest s t)
  | reset (next : NextReset s) (ctx : t.ctx = .reset) (digestValid : t.digestValid = false)
  | init (next : NextCommand s .init) (ctx : t.ctx = initContext s.seedIn.value s.freeCount s.ctx)
      (digest : KeepsDigest s t)
  | write (next : NextCommand s .write) (valid : s.ctx.valid = true)
      (fits : s.ctx.totalLen.toNat + s.lenIn.value.toNat ≤ 2 ^ 64 - 1) (ctx : t.ctx = (absorb s (inputBytes s)).ctx)
      (digest : KeepsDigest s t)
  | result (next : NextCommand s .finish ∨ NextCommand s .hash) (ctx : t.ctx = s.ctx) (err : t.err = .none)
      (digestValid : t.digestValid = true)

/-- A command run from `u`, the state `s` with the CMD write taken, has one of these effects on `s`. -/
theorem BlockEffect.of_exec {i : Instr} {s u t : State} (hn : NextCommand s i)
    (hu : ∃ rest, u = acceptCommand i (takeEvent rest s)) (h : exec i u = .next t) : BlockEffect s t := by
  obtain ⟨rest, rfl⟩ := hu
  obtain ⟨_, _, _, _, -, -, hd⟩ := id hn
  obtain rfl | rfl | rfl | rfl := decodeCmd_ok hd
  · rw [execInit_next h]
    exact .init hn rfl ⟨rfl, rfl⟩
  · obtain ⟨-, rfl⟩ | ⟨hv, ⟨-, -, rfl⟩ | ⟨-, rfl⟩ | ⟨hl, rfl⟩⟩ := execWrite_next h
    · exact .quiet rfl ⟨rfl, rfl⟩
    · exact .quiet rfl ⟨rfl, rfl⟩
    · exact .quiet rfl ⟨rfl, rfl⟩
    · rw [sourceBytes_input]
      exact .write hn hv hl (absorb_ctx_congr (s := s) (u := acceptCommand .write (takeEvent rest s)) rfl rfl _)
        (by simp [KeepsDigest])
  · obtain ⟨-, rfl⟩ | ⟨-, rfl⟩ := execFinish_next h
    · exact .quiet rfl ⟨rfl, rfl⟩
    · exact .result (.inl hn) rfl rfl rfl
  · obtain ⟨-, -, rfl⟩ | rfl := execHash_next h
    · exact .quiet rfl ⟨rfl, rfl⟩
    · exact .result (.inr hn) rfl rfl rfl

/-- Every step that answers a next state has one of these effects. -/
theorem step_blockEffect {s t : State} (h : step s = .next t) : BlockEffect s t := by
  obtain ⟨-, rfl⟩ | ⟨e, rest, hp, he⟩ := step_next h
  · exact .quiet rfl ⟨rfl, rfl⟩
  obtain ⟨addr, width, v, i, rfl, ho, hd, -, hx⟩ | ⟨-, rfl⟩ | ⟨_, _, _, rfl⟩ | ⟨_, _, _, _, rfl | rfl⟩ | ⟨-, -, rfl⟩ |
    ⟨_, _, -, rfl⟩ | ⟨heq, rfl⟩ | ⟨_, rfl⟩ := runEvent_next he
  · exact .of_exec ⟨addr, width, v, rest, hp, ho, hd⟩ ⟨rest, rfl⟩ hx
  iterate 6 exact .quiet rfl ⟨rfl, rfl⟩
  · exact .reset ⟨rest, heq ▸ hp⟩ rfl rfl
  · exact .quiet rfl ⟨rfl, rfl⟩

/-- Settles O6: read off the effects of a step; only an INIT and a reset write CTX_VALID, only a FINISH or HASH and a reset
write DIGEST_VALID. -/
theorem validBitsHaveTheirWriters : Obligations.ValidBitsHaveTheirWriters := by
  intro s t h
  cases step_blockEffect h with
  | quiet hc hd | write _ _ _ hc hd =>
    obtain ⟨-, hdv⟩ := hd
    simp +contextual [hc, hdv]
  | reset hn hc hv => simp +contextual [hc, hv, hn, Context.reset]
  | init hn hc hd =>
    obtain ⟨-, hdv⟩ := hd
    simp +contextual [hc, hdv, hn, initContext]
  | result hn hc _ hv => simp +contextual [hc, hv, hn]

/-- Settles O7: of the effects of a step, only a reset and a completed FINISH or HASH write DIGEST. -/
theorem onlyFinishAndHashWriteDigest : Obligations.OnlyFinishAndHashWriteDigest := by
  intro s t h hne
  cases step_blockEffect h with
  | quiet _ hd | init _ _ hd | write _ _ _ _ hd => exact absurd hd.1 hne
  | reset hn => exact .inl hn
  | result hn _ he hv => exact .inr ⟨hn, he, hv⟩

end Sys2Proof.Machine
end

section
/-! The lengths of the context: TOTAL_LEN over a WRITE and over a step (10_state.md rule R33), the buffer-length law (rules R31
and R32), and the stream state they decide (rules R36 and R37). -/
namespace Sys2Proof.Machine

/-- Where the sum fits 64 bits, absorbing raises TOTAL_LEN by the chunk's length. -/
theorem absorb_totalLen_toNat {s : State} {d : List Byte} (h : s.ctx.totalLen.toNat + d.length ≤ 2 ^ 64 - 1) :
    (absorb s d).ctx.totalLen.toNat = s.ctx.totalLen.toNat + d.length := by
  rw [absorb_ctx_totalLen, BitVec.toNat_add, BitVec.toNat_ofNat]
  omega

/-- A WRITE that ends without error had a context, and raised TOTAL_LEN by LEN_IN; any other leaves the context alone. -/
theorem execWrite_lengths {s t : State} (h : exec .write s = .next t) :
    (t.err = .none ∧ s.ctx.valid = true ∧ t.ctx.valid = true ∧
        t.ctx.totalLen.toNat = s.ctx.totalLen.toNat + s.lenIn.value.toNat) ∨
      (t.err ≠ .none ∧ t.ctx = s.ctx) := by
  obtain ⟨-, rfl⟩ | ⟨hv, ⟨-, -, rfl⟩ | ⟨-, rfl⟩ | ⟨hl, rfl⟩⟩ := execWrite_next h
  iterate 3 exact .inr ⟨by simp, rfl⟩
  refine .inl ⟨rfl, hv, by simpa using hv, ?_⟩
  exact (absorb_totalLen_toNat (by simpa using hl)).trans (by simp)

/-- FINISH and HASH leave the context alone. -/
theorem execResult_ctx {s t : State} (h : exec .finish s = .next t ∨ exec .hash s = .next t) : t.ctx = s.ctx := by
  obtain h | h := h
  · obtain ⟨-, rfl⟩ | ⟨-, rfl⟩ := execFinish_next h <;> rfl
  · obtain ⟨-, -, rfl⟩ | rfl := execHash_next h <;> rfl

/-- Settles O5: of the effects of a step only a reset and an INIT can lower TOTAL_LEN, and a WRITE that completes raised it by
LEN_IN. -/
theorem totalLenNeverFalls : Obligations.TotalLenNeverFalls := by
  refine ⟨fun s t _ h hinit hreset => ?_, fun s t h => ?_, fun s t h => ?_⟩
  · cases step_blockEffect h with
    | quiet hc | result _ hc => rw [hc]
    | reset hn => exact absurd hn hreset
    | init hn => exact absurd hn hinit
    | write _ _ hfits hc =>
      rw [hc, absorb_totalLen_toNat (by simpa using hfits)]
      omega
  · rw [execInit_next h]; rfl
  · obtain ⟨he, -, -, hl⟩ | ⟨he, hc⟩ := execWrite_lengths h
    · exact ⟨fun _ => hl, fun hne => absurd he hne⟩
    · exact ⟨fun hn => absurd hn he, fun _ => by rw [hc]⟩

/-- 10_state.md rules R31 and R32: BUFLEN is below 32, and is TOTAL_LEN mod 32 while the context is valid. -/
def Context.LengthLaw (c : Context) : Prop :=
  c.bufLen.toNat < 32 ∧ (c.valid = true → c.bufLen.toNat = c.totalLen.toNat % 32)

/-- A WRITE keeps the law; TOTAL_LEN may even wrap, since 32 divides 2^64. -/
theorem absorb_lengthLaw {s : State} (d : List Byte) (h : s.ctx.LengthLaw) : (absorb s d).ctx.LengthLaw := by
  obtain ⟨hlt, hmod⟩ := h
  have hb := absorb_bufLen d hlt
  refine ⟨by omega, fun hv => ?_⟩
  have hm := hmod (by simpa using hv)
  rw [hb, absorb_ctx_totalLen, BitVec.toNat_add, BitVec.toNat_ofNat]
  omega

theorem reset_lengthLaw : Context.reset.LengthLaw := by simp [Context.LengthLaw, Context.reset]

/-- Every step keeps the law. -/
theorem BlockEffect.lengthLaw {s t : State} (he : BlockEffect s t) (h : s.ctx.LengthLaw) : t.ctx.LengthLaw := by
  cases he with
  | quiet hc | result _ hc => rwa [hc]
  | reset _ hc => rw [hc]; exact reset_lengthLaw
  | init _ hc => rw [hc]; simp [Context.LengthLaw, initContext]
  | write _ _ _ hc => rw [hc]; exact absorb_lengthLaw _ h

section streamState
variable (c : Context)

theorem streamState_uninit_iff : streamState c = .uninit ↔ c.valid = false := by
  unfold streamState; split_ifs <;> simp_all

theorem streamState_empty_iff : streamState c = .empty ↔ c.valid = true ∧ c.totalLen.toNat = 0 := by
  unfold streamState; split_ifs <;> simp_all [BitVec.toNat_eq]

theorem streamState_buffering_iff :
    streamState c = .buffering ↔ c.valid = true ∧ 1 ≤ c.totalLen.toNat ∧ c.totalLen.toNat < 32 := by
  unfold streamState; split_ifs <;> simp_all [BitVec.toNat_eq]; omega

theorem streamState_accumulating_iff :
    streamState c = .accumulating ↔ c.valid = true ∧ 32 ≤ c.totalLen.toNat := by
  unfold streamState; split_ifs <;> simp_all

end streamState

/-- Settles O34: the stream state is decided by CTX_VALID and TOTAL_LEN, and a WRITE that completes raised TOTAL_LEN by
LEN_IN. -/
theorem streamStateTransitions : Obligations.StreamStateTransitions := by
  refine ⟨fun s t h => ?_, fun s t h he => ?_, fun s t h he => ?_, fun s t h => ?_, fun s t hu h => ?_⟩
  · rw [execInit_next h]; rfl
  · obtain ⟨-, -, hv, hl⟩ | ⟨hne, -⟩ := execWrite_lengths h
    · simp only [streamState_empty_iff, streamState_buffering_iff, streamState_accumulating_iff, hv, hl, true_and,
        BitVec.toNat_eq, BitVec.ofNat_eq_ofNat, BitVec.toNat_zero]
      omega
    · exact absurd he hne
  · obtain ⟨hn, -⟩ | ⟨-, hc⟩ := execWrite_lengths h
    · exact absurd hn he
    · rw [hc]
  · rw [execResult_ctx h]
  · have hv := (streamState_uninit_iff _).1 hu
    obtain h | h := h
    · obtain ⟨-, rfl⟩ | ⟨hv', -⟩ := execWrite_next h
      · exact ⟨hu, rfl⟩
      · simp [hv] at hv'
    · obtain ⟨-, rfl⟩ | ⟨hv', -⟩ := execFinish_next h
      · exact ⟨hu, rfl⟩
      · simp [hv] at hv'

end Sys2Proof.Machine
end

section
/-! The context as a stream of bytes (10_state.md rules R32 and R34): INIT starts the empty stream, WRITE appends to it. -/
namespace Sys2Proof.Machine

/-- A fold over more bytes: the whole stripes of d first, then those of what d leaves followed by the rest. -/
theorem stripes_append (q : Quad) (d e : List Byte) :
    (stripes q (d ++ e)).1 = (stripes (stripes q d).1 (d.drop (32 * (d.length / 32)) ++ e)).1 := by
  have hk : 32 * (d.length / 32) ≤ d.length := Nat.mul_div_le _ _
  have hcount : (d ++ e).length / 32 = d.length / 32 + (d.drop (32 * (d.length / 32)) ++ e).length / 32 := by
    simp only [List.length_append, List.length_drop]; omega
  simp only [stripes]
  rw [hcount, foldStripes_add, foldStripes_take _ _ _ _ hk, List.drop_append_of_le_length hk]

/-- What d leaves over whole stripes, followed by e, leaves over whole stripes what d followed by e does. -/
theorem drop_whole_append (d e : List Byte) :
    (d.drop (32 * (d.length / 32)) ++ e).drop (32 * ((d.drop (32 * (d.length / 32)) ++ e).length / 32)) =
      (d ++ e).drop (32 * ((d ++ e).length / 32)) := by
  rw [← List.drop_append_of_le_length (Nat.mul_div_le _ _), List.drop_drop]
  congr 1
  simp only [List.length_drop, List.length_append]
  omega

/-- A WRITE appends its bytes to the stream the context holds. -/
theorem StreamHolds.absorb {s : State} {seed : Word} {d : List Byte} (h : StreamHolds s.ctx seed d) (e : List Byte)
    (hfits : d.length + e.length ≤ 2 ^ 64 - 1) : StreamHolds (absorb s e).ctx seed (d ++ e) := by
  obtain ⟨hv, hseed, htotal, hbuf, hquad, hcarried⟩ := h
  have hlt : s.ctx.bufLen.toNat < 32 := by omega
  obtain ⟨hq, hc⟩ := absorb_spec e hlt
  rw [hcarried] at hq hc
  refine ⟨by simpa using hv, by simpa using hseed, ?_, ?_, ?_, hc.trans (drop_whole_append d e)⟩
  · rw [absorb_totalLen_toNat (by omega), htotal, List.length_append]
  · rw [absorb_bufLen e hlt, hbuf, List.length_append]; omega
  · rw [hq, stripes_append, ← hquad]; rfl

/-- INIT starts the empty stream under its seed. -/
theorem streamHolds_initContext (seed : Word) (n : Nat) (c : Context) : StreamHolds (initContext seed n c) seed [] :=
  ⟨rfl, rfl, rfl, rfl, rfl, rfl⟩

/-- Settles O60: of the effects of a step, INIT starts an empty stream, WRITE appends its input to the stream held, a reset
leaves no context, and no other touches the context. -/
theorem stepKeepsStream : Obligations.StepKeepsStream := by
  intro s t hs h
  cases step_blockEffect h with
  | quiet hc | result _ hc => rwa [hc]
  | reset _ hc => rw [hc]; intro hv; cases hv
  | init _ hc => rw [hc]; exact fun _ => ⟨_, _, streamHolds_initContext _ _ _⟩
  | write _ hv hfits hc =>
    obtain ⟨seed, d, hd⟩ := hs hv
    obtain ⟨-, -, hlen, -⟩ := id hd
    rw [hc]
    exact fun _ => ⟨seed, d ++ inputBytes s, hd.absorb _ (by rw [length_inputBytes, ← hlen]; exact hfits)⟩

/-- Settles O35: a ready WRITE absorbs its input, which appends it to the stream. -/
theorem writeExtendsStream : Obligations.WriteExtendsStream := by
  intro s seed d hd hr hfits
  obtain ⟨hv, -, htotal, -⟩ := id hd
  exact ⟨_, write_ready hv hr (by omega), hd.absorb _ (by rw [length_inputBytes]; omega)⟩

/-- Settles O3: memory is empty, the parameters are the spec's defaults, and there is no context. -/
theorem resetMeetsInvariant : Obligations.ResetMeetsInvariant :=
  ⟨⟨rfl, rfl, by decide, reset_lengthLaw⟩, fun hv => by cases hv⟩

end Sys2Proof.Machine
end

section
/-! The machine's invariant over a step: the parts that are not the context's. -/
namespace Sys2Proof.Machine

/-- A command that answers leaves memory alone and BUSY clear (20_memory.md rule R55, 70_reset_and_hazards.md rule R250). -/
theorem execCommand_mem_busy {w : Word32} {i : Instr} {s t : State} (hi : decodeCmd w = .ok i)
    (h : exec i s = .next t) : t.mem = s.mem ∧ t.busy = false := by
  obtain rfl | rfl | rfl | rfl := decodeCmd_ok hi
  · rw [execInit_next h]; exact ⟨rfl, rfl⟩
  · obtain ⟨-, rfl⟩ | ⟨-, ⟨-, -, rfl⟩ | ⟨-, rfl⟩ | ⟨-, rfl⟩⟩ := execWrite_next h <;> simp
  · obtain ⟨-, rfl⟩ | ⟨-, rfl⟩ := execFinish_next h <;> exact ⟨rfl, rfl⟩
  · obtain ⟨-, -, rfl⟩ | rfl := execHash_next h <;> exact ⟨rfl, rfl⟩

/-- An event keeps the source memory in canonical form and BUSY clear; a WAIT goes on polling only where BUSY is set. -/
theorem runEvent_mem_busy {e : Event} {s t : State} (h : runEvent e s = .next t) (hm : Memory.wf s.mem = true)
    (hb : s.busy = false) : Memory.wf t.mem = true ∧ t.busy = false := by
  obtain ⟨_, _, _, i, -, -, hd, -, hx⟩ | ⟨-, rfl⟩ | ⟨_, _, _, rfl⟩ | ⟨_, _, _, _, rfl | rfl⟩ | ⟨hbusy, -, -⟩ |
    ⟨a, b, -, rfl⟩ | ⟨-, rfl⟩ | ⟨_, rfl⟩ := runEvent_next h
  · obtain ⟨hmem, hbusy⟩ := execCommand_mem_busy hd hx
    exact ⟨by rw [hmem]; exact hm, hbusy⟩
  iterate 4 exact ⟨hm, by simp [hb]⟩
  · rw [hb] at hbusy; cases hbusy
  · exact ⟨Memory.write_wf hm a b, hb⟩
  iterate 2 exact ⟨hm, by simp [hb]⟩

theorem step_mem_busy {s t : State} (h : step s = .next t) (hm : Memory.wf s.mem = true) (hb : s.busy = false) :
    Memory.wf t.mem = true ∧ t.busy = false := by
  obtain ⟨-, rfl⟩ | ⟨e, rest, -, he⟩ := step_next h
  · exact ⟨hm, hb⟩
  · exact runEvent_mem_busy he hm hb

/-- Settles O4: memory and BUSY by the events, the parameters by O9, the lengths of the context by the effects of a step. -/
theorem stepKeepsInvariant : Obligations.StepKeepsInvariant := by
  intro s t ⟨hm, hb, hp, hlaw⟩ h
  obtain ⟨hm', hb'⟩ := step_mem_busy h hm hb
  exact ⟨hm', hb', by rw [stepKeepsParams s t h]; exact hp, (step_blockEffect h).lengthLaw hlaw⟩

end Sys2Proof.Machine
end

section
/-! The bytes of BUF at index not below BUFLEN are unobservable (10_state.md rule R35): every operation of the model, run on two
states that differ only there, answers alike. -/
namespace Sys2Proof.Machine

/-- The state with another carry buffer. -/
def State.withBuf (b : Vector Byte 32) (s : State) : State := { s with ctx := { s.ctx with buf := b } }

/-- Two states agree but for the tail when the second is the first with another buffer that carries the same bytes. -/
theorem sameButTail_iff {s t : State} :
    SameButTail s t ↔ ∃ b, t = s.withBuf b ∧ carried (s.withBuf b).ctx = carried s.ctx := by
  constructor
  · rintro ⟨ht, hc⟩
    exact ⟨t.ctx.buf, ht, by rw [ht] at hc; exact hc⟩
  · rintro ⟨b, rfl, hc⟩
    exact ⟨rfl, hc⟩

theorem SameButTail.refl (s : State) : SameButTail s s := ⟨rfl, rfl⟩

/-- With BUFLEN of 32 or more there is no tail. -/
theorem SameButTail.eq_of_full {s t : State} (h : SameButTail s t) (hfull : 32 ≤ s.ctx.bufLen.toNat) : t = s := by
  obtain ⟨b, rfl, hc⟩ := sameButTail_iff.1 h
  have hb : b = s.ctx.buf := by
    apply Vector.toList_inj.1
    simpa [carried, State.withBuf, List.take_of_length_le, hfull] using hc
  rw [hb]; rfl

/-- An update that neither reads nor writes the context keeps the agreement. -/
theorem SameButTail.map {s t : State} (f : State → State) (h : SameButTail s t)
    (hbuf : ∀ b, f (s.withBuf b) = (f s).withBuf b) (hctx : (f s).ctx = s.ctx) : SameButTail (f s) (f t) := by
  obtain ⟨b, rfl, hc⟩ := sameButTail_iff.1 h
  refine sameButTail_iff.2 ⟨b, hbuf b, ?_⟩
  simpa only [State.withBuf, hctx] using hc

/-- So does replacing the contexts by two that differ only in the tail. -/
theorem SameButTail.setCtx {s t : State} (h : SameButTail s t) {c c' : Context} (n : Nat)
    (hc : c' = { c with buf := c'.buf }) (hcarried : carried c' = carried c) :
    SameButTail { s with ctx := c, freeCount := n } { t with ctx := c', freeCount := n } := by
  obtain ⟨b, rfl, -⟩ := sameButTail_iff.1 h
  exact ⟨congrArg (fun x => { s with ctx := x, freeCount := n }) hc, hcarried⟩

theorem Context.eq_setBuf {c c' : Context} (hv : c'.valid = c.valid) (hs : c'.seed = c.seed) (hq : c'.quad = c.quad)
    (hb : c'.bufLen = c.bufLen) (ht : c'.totalLen = c.totalLen) : c' = { c with buf := c'.buf } := by
  cases c; cases c'; simp_all

theorem absorb_freeCount (s : State) (d : List Byte) :
    (absorb s d).freeCount = if s.ctx.bufLen.toNat + d.length < 32 then s.freeCount else s.freeCount + 1 := by
  unfold absorb; split <;> rfl

/-- A WRITE folds and carries the carried bytes followed by the chunk, whatever the tail was. -/
theorem SameButTail.absorb {s t : State} (h : SameButTail s t) (d : List Byte) :
    SameButTail (absorb s d) (absorb t d) := by
  by_cases hs : s.ctx.bufLen.toNat < 32
  case neg =>
    rw [h.eq_of_full (Nat.le_of_not_lt hs)]
    exact .refl _
  obtain ⟨b, rfl, hc⟩ := sameButTail_iff.1 h
  obtain ⟨hq, hk⟩ := absorb_spec d hs
  obtain ⟨hq', hk'⟩ := absorb_spec (s := s.withBuf b) d hs
  have hlen := (absorb_bufLen (s := s.withBuf b) d hs).trans (absorb_bufLen d hs).symm
  have hfree : (Machine.absorb (s.withBuf b) d).freeCount = (Machine.absorb s d).freeCount := by
    simp only [absorb_freeCount]; rfl
  rw [hc] at hq' hk'
  rw [absorb_eq s, absorb_eq (s.withBuf b), hfree]
  refine h.setCtx _ (Context.eq_setBuf ?_ ?_ (hq'.trans hq.symm) (BitVec.eq_of_toNat_eq hlen) ?_) (hk'.trans hk.symm)
  · rw [absorb_ctx_valid, absorb_ctx_valid]; rfl
  · rw [absorb_ctx_seed, absorb_ctx_seed]; rfl
  · rw [absorb_ctx_totalLen, absorb_ctx_totalLen]; rfl

/-- Two branches on one condition agree if they agree branch by branch. -/
theorem ResultsAgree.ite {R : State → State → Prop} {P : Prop} [Decidable P] {i : Decidable P} {a b a' b' : Result}
    (ht : P → ResultsAgree R a a') (hf : ¬ P → ResultsAgree R b b') :
    ResultsAgree R (if P then a else b) (@ite _ P i a' b') := by
  by_cases h : P
  · rw [if_pos h, if_pos h]; exact ht h
  · rw [if_neg h, if_neg h]; exact hf h

section agree
variable {s t : State} (h : SameButTail s t)
include h

theorem withOperand_agree (r : OperandName) {k : Word → State → Result}
    (hk : ∀ v u w, SameButTail u w → ResultsAgree SameButTail (k v u) (k v w)) :
    ResultsAgree SameButTail (withOperand r s k) (withOperand r t k) := by
  obtain ⟨b, rfl, -⟩ := sameButTail_iff.1 h
  cases r <;> exact hk _ _ _ (h.map (noteUses _) (fun _ => rfl) rfl)

theorem withRange_agree (n : Word) {k : Nat → State → Result}
    (hk : ∀ a u w, SameButTail u w → ResultsAgree SameButTail (k a u) (k a w)) :
    ResultsAgree SameButTail (withRange n s k) (withRange n t k) := by
  refine .ite (fun _ => hk _ _ _ h) fun _ => withOperand_agree h _ fun a u w huw => ?_
  obtain ⟨b, rfl, -⟩ := sameButTail_iff.1 huw
  exact .ite (fun _ => huw.map (raiseCmdError _) (fun _ => rfl) rfl) fun _ => hk _ _ _ huw

theorem withSource_agree (a n : Nat) {k k' : List Byte → Result}
    (hk : ∀ d, ResultsAgree SameButTail (k d) (k' d)) :
    ResultsAgree SameButTail (withSource a n s k) (withSource a n t k') := by
  obtain ⟨b, rfl, -⟩ := sameButTail_iff.1 h
  exact .ite (fun _ => rfl) fun _ => .ite (fun _ => rfl) fun _ => hk _

theorem raiseCmdError_agree (c : ErrCode) : SameButTail (raiseCmdError c s) (raiseCmdError c t) :=
  h.map (raiseCmdError c) (fun _ => rfl) rfl

theorem completeCommand_agree : SameButTail (completeCommand s) (completeCommand t) :=
  h.map completeCommand (fun _ => rfl) rfl

theorem setDigest_agree (v : Word) : SameButTail (setDigest v s) (setDigest v t) :=
  h.map (setDigest v) (fun _ => rfl) rfl

/-- INIT writes no byte of BUF: it carries none, and all become free values. -/
theorem execInit_agree : ResultsAgree SameButTail (execInit s) (execInit t) :=
  withOperand_agree h _ fun seed u w huw => by
    obtain ⟨b, rfl, -⟩ := sameButTail_iff.1 huw
    exact completeCommand_agree (huw.setCtx (u.freeCount + 1) (c := initContext seed u.freeCount u.ctx) rfl rfl)

theorem execWrite_agree : ResultsAgree SameButTail (execWrite s) (execWrite t) := by
  obtain ⟨b, rfl, -⟩ := sameButTail_iff.1 h
  refine .ite (fun _ => raiseCmdError_agree h _) fun _ =>
    withOperand_agree h _ fun n _ _ h => withRange_agree h _ fun a u w h => ?_
  obtain ⟨b, rfl, -⟩ := sameButTail_iff.1 h
  exact .ite (fun _ => raiseCmdError_agree h _) fun _ =>
    withSource_agree h _ _ fun d => completeCommand_agree (h.absorb d)

/-- FINISH reads of BUF the carried bytes alone. -/
theorem streamDigest_agree : streamDigest t.ctx = streamDigest s.ctx := by
  obtain ⟨b, rfl, hc⟩ := sameButTail_iff.1 h
  rw [streamDigest, hc]; rfl

theorem execFinish_agree : ResultsAgree SameButTail (execFinish s) (execFinish t) := by
  have hd := streamDigest_agree h
  unfold execFinish
  rw [hd]
  obtain ⟨b, rfl, -⟩ := sameButTail_iff.1 h
  exact .ite (fun _ => raiseCmdError_agree h _) fun _ => completeCommand_agree (setDigest_agree h _)

theorem execHash_agree : ResultsAgree SameButTail (execHash s) (execHash t) :=
  withOperand_agree h _ fun _ _ _ h => withOperand_agree h _ fun _ _ _ h => withRange_agree h _ fun _ _ _ h =>
    withSource_agree h _ _ fun _ => completeCommand_agree (setDigest_agree h _)

theorem setDp_agree (dp : Datapath) : ResultsAgree SameButTail (setDp s dp) (setDp t dp) :=
  h.map (fun u => { u with dp := dp }) (fun _ => rfl) rfl

/-- Every instruction answers alike; the datapath operations do not look at the context. -/
theorem exec_agree (i : Instr) : ResultsAgree SameButTail (exec i s) (exec i t) := by
  cases i with
  | init => exact execInit_agree h
  | write => exact execWrite_agree h
  | finish => exact execFinish_agree h
  | hash => exact execHash_agree h
  | _ =>
    obtain ⟨b, rfl, -⟩ := sameButTail_iff.1 h
    exact setDp_agree h _

theorem acceptCommand_agree (i : Instr) : SameButTail (acceptCommand i s) (acceptCommand i t) :=
  h.map (acceptCommand i) (fun _ => by cases i <;> rfl) rfl

theorem issueCommand_agree (w : Word32) : ResultsAgree SameButTail (issueCommand w s) (issueCommand w t) := by
  have hbusy : t.busy = s.busy := by obtain ⟨b, rfl, -⟩ := sameButTail_iff.1 h; rfl
  unfold issueCommand
  rw [hbusy]
  refine .ite (fun _ => rfl) fun _ => ?_
  cases decodeCmd w with
  | ok i => exact exec_agree (acceptCommand_agree h i) i
  | error e => exact h.map (fun u => raiseCmdError .illegalCmd (startCommand u)) (fun _ => rfl) rfl

theorem hostWrite_agree (addr width : Nat) (v : Word) :
    ResultsAgree SameButTail (hostWrite addr width v s) (hostWrite addr width v t) := by
  obtain ⟨b, rfl, -⟩ := sameButTail_iff.1 h
  have hwin : windowOffset (s.withBuf b).params addr = windowOffset s.params addr := rfl
  unfold hostWrite
  rw [hwin]
  cases windowOffset s.params addr with
  | none => exact rfl
  | some off =>
    refine .ite (fun _ => rfl) fun _ => .ite (fun _ => issueCommand_agree h _) fun _ => .ite (fun _ => h) fun _ =>
      .ite (fun _ => ?_) fun _ => .ite (fun _ => ?_) fun _ => .ite (fun _ => ?_) fun _ => h
    · exact h.map (fun u => { u with seedIn := u.seedIn.store off width v }) (fun _ => rfl) rfl
    · exact h.map (fun u => { u with srcAddr := u.srcAddr.store off width v }) (fun _ => rfl) rfl
    · exact h.map (fun u => { u with lenIn := u.lenIn.store off width v }) (fun _ => rfl) rfl

theorem hostRead_agree (addr width : Nat) :
    ResultsAgree SameButTail (hostRead addr width s) (hostRead addr width t) := by
  obtain ⟨b, rfl, -⟩ := sameButTail_iff.1 h
  have hwin : windowOffset (s.withBuf b).params addr = windowOffset s.params addr := rfl
  unfold hostRead
  rw [hwin]
  cases windowOffset s.params addr with
  | none => exact rfl
  | some off =>
    refine .ite (fun _ => rfl) fun _ => .ite (fun _ => rfl) fun _ => ?_
    exact h.map (fun u => logRead addr width (readValue s off width) (afterRead off width (noteUses (digestUse off s) u)))
      (fun _ => by unfold afterRead; split <;> rfl) (by unfold afterRead; split <;> rfl)

theorem hostWait_agree : ResultsAgree SameButTail (hostWait s) (hostWait t) := by
  obtain ⟨b, rfl, -⟩ := sameButTail_iff.1 h
  refine .ite (fun _ => ?_) fun _ => ?_
  · exact h.map (fun u => { u with pending := .wait :: u.pending }) (fun _ => rfl) rfl
  · exact h.map (fun u => logRead (s.params.xxhBase + offStatus) 4 ((statusWord s).setWidth 64) (observeIdle u))
      (fun _ => rfl) rfl

theorem hostStore_agree (a : Nat) (v : Byte) : ResultsAgree SameButTail (hostStore a v s) (hostStore a v t) := by
  obtain ⟨b, rfl, -⟩ := sameButTail_iff.1 h
  exact .ite (fun _ => .ite (fun _ => rfl) fun _ =>
    h.map (fun u => { u with mem := Memory.write u.mem a v }) (fun _ => rfl) rfl) fun _ => rfl

theorem runUop_agree (label : Byte) : ResultsAgree SameButTail (runUop label s) (runUop label t) := by
  unfold runUop
  cases decodeLabelByte label with
  | ok i => exact exec_agree h i
  | error e => exact rfl

theorem runEvent_agree (e : Event) : ResultsAgree SameButTail (runEvent e s) (runEvent e t) := by
  cases e with
  | write addr width v => exact hostWrite_agree h addr width v
  | read addr width => exact hostRead_agree h addr width
  | wait => exact hostWait_agree h
  | store a v => exact hostStore_agree h a v
  | reset =>
    obtain ⟨b, rfl, -⟩ := sameButTail_iff.1 h
    exact SameButTail.refl (resetBlock s)
  | operands dp => exact h.map (fun u => { u with dp := dp }) (fun _ => rfl) rfl
  | uop label => exact runUop_agree h label

end agree

/-- Settles O10: an idle step keeps the two states, and an event is answered alike. -/
theorem bufferTailIsUnobservable : Obligations.BufferTailIsUnobservable := by
  intro s t h
  have hpending : t.pending = s.pending := by obtain ⟨b, rfl, -⟩ := sameButTail_iff.1 h; rfl
  unfold step
  rw [hpending]
  cases s.pending with
  | nil => exact h
  | cons e rest => exact runEvent_agree (h.map (takeEvent rest) (fun _ => rfl) rfl) e

end Sys2Proof.Machine
end

section
/-! The register window: what a legal host access of a window offset does (10_state.md rule R22, 20_memory.md rule R61), and
with it the reads of STATUS, the operand registers, the CMD write, and the state after reset. -/
namespace Sys2Proof.Machine

/-- A legal read in the window, not of a result while BUSY = 1, gives the value at its offset. -/
theorem runEvent_read {s : State} {off width : Nat} (hoff : off < windowSize) (hlegal : legalAccess off width = true)
    (hbusy : (s.busy && (coversStatus off width || coversDigest off)) = false) :
    runEvent (.read (s.params.xxhBase + off) width) s = .next (logRead (s.params.xxhBase + off) width
      (readValue s off width) (afterRead off width (noteUses (digestUse off s) s))) := by
  simp only [runEvent, hostRead, windowOffset_base _ hoff, hlegal, hbusy, Bool.true_eq_false, Bool.false_eq_true, if_false]

/-- A write of CMD, 4 or 8 bytes wide, issues the word in its low half (10_state.md rule R23). -/
theorem runEvent_write_cmd {s : State} {width : Nat} {v : Word} (hw : width = 4 ∨ width = 8) :
    runEvent (.write (s.params.xxhBase + offCmd) width v) s = issueCommand (loHalf v) s := by
  have hwin : windowOffset s.params (s.params.xxhBase + offCmd) = some offCmd := windowOffset_base _ (by decide)
  simp only [runEvent, hostWrite, hwin]
  obtain rfl | rfl := hw <;> rfl

/-- While BUSY is 0, issuing a word that decodes runs the command. -/
theorem issueCommand_ok {s : State} {w : Word32} {i : Instr} (hb : s.busy = false) (hd : decodeCmd w = .ok i) :
    issueCommand w s = exec i (acceptCommand i s) := by
  simp [issueCommand, hb, hd]

/-- What a command's source range is does not depend on the events to come. -/
theorem sourceRange_takeEvent (i : Instr) (rest : List Event) (s : State) :
    sourceRange i (takeEvent rest s) = sourceRange i s := by
  cases i <;> rfl

/-- Settles O15: the step takes the event, and the CMD write issues the word. -/
theorem stepRunsWrittenCommand : Obligations.StepRunsWrittenCommand := by
  intro s rest width v i hp hw hb hd
  calc step s = runEvent (.write (s.params.xxhBase + offCmd) width v) (takeEvent rest s) := step_cons hp
    _ = issueCommand (loHalf v) (takeEvent rest s) := runEvent_write_cmd (s := takeEvent rest s) hw
    _ = exec i (acceptCommand i (takeEvent rest s)) := issueCommand_ok hb hd
    _ = _ := by rw [acceptCommand, sourceRange_takeEvent]; rfl

/-- The state with one operand register replaced. -/
def State.setOperand (s : State) (reg : OperandReg) : OperandName → State
  | .seedIn => { s with seedIn := reg }
  | .srcAddr => { s with srcAddr := reg }
  | .lenIn => { s with lenIn := reg }

theorem operandReg_setOperand (s : State) (reg : OperandReg) (r q : OperandName) :
    operandReg (s.setOperand reg r) q = if q = r then reg else operandReg s q := by
  cases r <;> cases q <;> rfl

/-- Replacing an operand register leaves the rest of the block and the memory alone. -/
theorem setOperand_frame (s : State) (reg : OperandReg) (r : OperandName) :
    KeepsDigest s (s.setOperand reg r) ∧ (s.setOperand reg r).ctx = s.ctx ∧ (s.setOperand reg r).err = s.err ∧
      SameMemory s (s.setOperand reg r) ∧ (s.setOperand reg r).params = s.params := by
  cases r <;> exact ⟨⟨rfl, rfl⟩, rfl, rfl, fun _ => rfl, rfl⟩

/-- An 8-byte write of an operand register writes all of it and nothing else. -/
theorem runEvent_write_operand (s : State) (r : OperandName) (v : Word) :
    runEvent (w64 s.params (operandOffset r) v) s = .next (s.setOperand ⟨v, true, true⟩ r) := by
  have hwin : windowOffset s.params (s.params.xxhBase + operandOffset r) = some (operandOffset r) :=
    windowOffset_base _ (by cases r <;> decide)
  simp only [w64, runEvent, hostWrite, hwin]
  cases r <;> rfl

/-- An 8-byte read of an operand register gives its value; it is no read of a result, so BUSY does not matter. -/
theorem runEvent_read_operand (s : State) (r : OperandName) :
    runEvent (r64 s.params (operandOffset r)) s =
      .next (logRead (s.params.xxhBase + operandOffset r) 8 (operandReg s r).value s) := by
  have hcovers : (coversStatus (operandOffset r) 8 || coversDigest (operandOffset r)) = false := by
    cases r <;> decide
  refine (runEvent_read (by cases r <;> decide) (by cases r <;> decide) (by rw [hcovers, Bool.and_false])).trans ?_
  cases r <;> rfl

/-- Settles O40: the write replaces the one register, and the read gives what it holds. -/
theorem operandReadsBackLastWrite : Obligations.OperandReadsBackLastWrite := by
  intro s r v
  obtain ⟨hdigest, hctx, herr, hmem, hparams⟩ := setOperand_frame s ⟨v, true, true⟩ r
  have hreg : operandReg (s.setOperand ⟨v, true, true⟩ r) r = ⟨v, true, true⟩ := by
    rw [operandReg_setOperand, if_pos rfl]
  refine ⟨_, runEvent_write_operand s r v, hreg, fun q hq => ?_, hdigest, hctx, herr, hmem, ?_⟩
  · rw [operandReg_setOperand, if_neg hq]
  · rw [← hparams, runEvent_read_operand, hreg]

/-- The fields of STATUS (10_state.md rule R24): each of the three bits, and all 4-bit codes. -/
theorem statusWord_fields (s : State) : (statusWord s).getLsbD 0 = s.busy ∧ (statusWord s).getLsbD 1 = s.ctx.valid ∧
    (statusWord s).getLsbD 2 = s.digestValid ∧ (statusWord s).getLsbD 3 = false ∧
    (statusWord s).extractLsb' 4 4 = errCode s.err ∧ (statusWord s).extractLsb' 8 24 = 0 := by
  unfold statusWord
  generalize s.busy = busy, s.ctx.valid = valid, s.digestValid = digestValid, errCode s.err = code
  revert busy valid digestValid code
  decide

/-- A 4-byte read at offset 4 gives the high half of the first slot, which is STATUS. -/
theorem readValue_status (s : State) : readValue s offStatus 4 = (statusWord s).setWidth 64 := by
  show (hiHalf (joinHalves (statusWord s) 0)).setWidth 64 = _
  rw [hiHalf_joinHalves]

/-- Settles O39: the fields of the word, and the two accesses that give it while BUSY is 0. -/
theorem statusLayout : Obligations.StatusLayout := by
  refine ⟨statusWord_fields, fun s hb => ⟨?_, ?_⟩, rfl, rfl, rfl, rfl, rfl⟩
  · refine (runEvent_read (off := offStatus) (by decide) rfl (by rw [hb, Bool.false_and])).trans ?_
    rw [readValue_status]; rfl
  · show hostWait s = _
    rw [hostWait, hb]; rfl

/-- Settles O1: the fields at reset, the two host reads, and the four commands run from there. -/
theorem resetState : Obligations.ResetState := by
  refine ⟨rfl, rfl, rfl, rfl, rfl, fun r => by cases r <;> exact ⟨rfl, rfl⟩, ?_, rfl,
    ⟨_, runEvent_read (off := offDigest) (width := 8) (by decide) rfl rfl⟩,
    ⟨_, execInit_eq _, rfl, rfl⟩, ⟨_, hash_ready (fun h => absurd rfl h), ?_, ?_⟩, rfl, rfl⟩
  · refine (runEvent_read (off := offCmd) (width := 4) (by decide) rfl rfl).trans ?_
    rw [show readValue State.reset offCmd 4 = 0 by decide]; rfl
  · decide
  · decide

end Sys2Proof.Machine
end

section
/-! The source memory (20_memory.md): what WRITE and HASH read of it and where they stop (rules R53, R56 and R60), that nothing
but a host store writes it (rules R55 and R64), and the window's 4-byte and illegal accesses (rule R61). -/
namespace Sys2Proof.Machine

/-- No instruction writes the source memory: no command does, and a datapath operation writes its record alone. -/
theorem exec_mem {i : Instr} {s t : State} (h : exec i s = .next t) : t.mem = s.mem := by
  cases i with
  | init => exact (execCommand_mem_busy (w := 0x00000001) rfl h).1
  | write => exact (execCommand_mem_busy (w := 0x00000002) rfl h).1
  | finish => exact (execCommand_mem_busy (w := 0x00000003) rfl h).1
  | hash => exact (execCommand_mem_busy (w := 0x00000004) rfl h).1
  | _ => cases h; rfl

/-- No event but a host store writes the source memory. -/
theorem runEvent_mem {e : Event} {s t : State} (h : runEvent e s = .next t) (he : ∀ a b, e ≠ .store a b) :
    t.mem = s.mem := by
  obtain ⟨_, _, _, _, -, -, -, -, hx⟩ | ⟨-, rfl⟩ | ⟨_, _, _, rfl⟩ | ⟨_, _, _, _, rfl | rfl⟩ | ⟨-, -, rfl⟩ |
    ⟨a, b, hstore, -⟩ | ⟨-, rfl⟩ | ⟨_, rfl⟩ := runEvent_next h
  · exact (exec_mem hx).trans (acceptCommand_mem _ s)
  iterate 5 rfl
  · exact absurd hstore (he a b)
  iterate 2 rfl

/-- Settles O8: an idle step changes nothing, and the event a step takes is a host store or writes no byte. -/
theorem blockNeverWritesMemory : Obligations.BlockNeverWritesMemory := by
  refine ⟨fun i s t h a => by rw [exec_mem h], fun s t h hns a => ?_⟩
  obtain ⟨-, rfl⟩ | ⟨e, rest, hp, he⟩ := step_next h
  · rfl
  · have hmem : t.mem = s.mem :=
      (runEvent_mem he fun a b heq => hns a b rest (heq ▸ hp)).trans (takeEvent_mem rest s)
    rw [hmem]

/-- A range that covers a read side effect is refused (70_reset_and_hazards.md rule R253). -/
theorem withSource_sideEffects {a n : Nat} {s : State} {k : List Byte → Result}
    (h : ∃ i < n, sourceKind s.params.regions (a + i) = some .readSideEffects) :
    withSource a n s k = .refused .sideEffectingSource := by
  obtain ⟨i, hi, hkind⟩ := h
  refine if_pos (Bool.eq_false_iff.2 fun hall => ?_)
  have := (rangeAll_iff _ _ _).1 hall i hi
  simp [readsWithSideEffects, hkind] at this

/-- Where the range covers none, a byte that is not admitted stops the block (20_memory.md rule R56). -/
theorem withSource_notAdmitted {a n : Nat} {s : State} {k : List Byte → Result}
    (hpure : ∀ i < n, sourceKind s.params.regions (a + i) ≠ some .readSideEffects)
    (h : ∃ i < n, sourceKind s.params.regions (a + i) = none) :
    withSource a n s k = .fault .sourceNotAdmitted := by
  obtain ⟨i, hi, hkind⟩ := h
  have hside : rangeAll (fun x => !readsWithSideEffects s.params x) a n = true :=
    (rangeAll_iff _ _ _).2 fun j hj => by simp [readsWithSideEffects, hpure j hj]
  have hadmit : rangeAll (srcAdmit s.params) a n = false := Bool.eq_false_iff.2 fun hall => by
    have := (rangeAll_iff _ _ _).1 hall i hi
    simp [srcAdmit, hkind] at this
  rw [withSource, if_neg (by simp [hside]), if_pos hadmit]

/-- Source reads that go on in one state go on in another with the same parameters and the same bytes in the range. -/
theorem withSource_transfer {a n : Nat} {s u t t' : State} {k k' : List Byte → Result}
    (h : withSource a n s k = .next t) (hp : u.params = s.params)
    (hm : ∀ i < n, Memory.read u.mem (a + i) = Memory.read s.mem (a + i))
    (hk : ∀ d, k d = .next t → k' d = .next t') : withSource a n u k' = .next t' := by
  unfold withSource at h ⊢
  rw [hp, sourceBytes_congr hm]
  split_ifs at h ⊢
  exact hk _ h

/-- No byte is read for an empty chunk, so its address does not matter; nor does the record of model faults. -/
theorem withSource_chunk {s : State} {a : Nat} (us : List UnspecifiedUse) (f : List Byte → Result)
    (ha : a = s.srcAddr.value.toNat ∨ s.lenIn.value = 0) :
    withSource a s.lenIn.value.toNat (noteUses us s) f =
      withSource s.srcAddr.value.toNat s.lenIn.value.toNat s f := by
  obtain rfl | h0 := ha
  · rfl
  · rw [h0]; rfl

/-- Which of the chunk's operands are unwritten does not depend on what is recorded. -/
@[simp] theorem chunkUses_noteUses (us : List UnspecifiedUse) (s : State) :
    chunkUses (noteUses us s) = chunkUses s := by
  simp [chunkUses]

/-- The range of the chunk, if it has one, does not pass the top of the source space (20_memory.md rule R54). -/
def ChunkFits (s : State) : Prop :=
  s.lenIn.value ≠ 0 → s.srcAddr.value.toNat + s.lenIn.value.toNat ≤ 2 ^ s.params.addrW

theorem not_chunkFits_iff {s : State} : ¬ ChunkFits s ↔
    s.lenIn.value ≠ 0 ∧ 2 ^ s.params.addrW < s.srcAddr.value.toNat + s.lenIn.value.toNat := by
  simp only [ChunkFits, Classical.not_imp, Nat.not_le]

section commands
/-! What WRITE and HASH answer, in the order of their checks (60_exceptions.md rule R220). -/
variable {s : State}

theorem exec_write_noContext (hv : s.ctx.valid = false) : exec .write s = .next (raiseCmdError .noContext s) := if_pos hv

theorem exec_write_addrRange (hv : s.ctx.valid = true) (hr : ¬ ChunkFits s) :
    exec .write s = .next (noteUses (chunkUses s) (raiseCmdError .addrRange s)) := by
  obtain ⟨h0, hb⟩ := not_chunkFits_iff.1 hr
  exact (if_neg (by simp [hv])).trans (chunk_beyond h0 hb)

theorem exec_write_lenOverflow (hv : s.ctx.valid = true) (hr : ChunkFits s)
    (ho : 2 ^ 64 - 1 < s.ctx.totalLen.toNat + s.lenIn.value.toNat) :
    exec .write s = .next (noteUses (chunkUses s) (raiseCmdError .lenOverflow s)) :=
  (if_neg (by simp [hv])).trans (chunk_ok hr fun _ _ => if_pos ho)

/-- A WRITE that passes its checks reads its source and absorbs the bytes. -/
theorem exec_write_source (hv : s.ctx.valid = true) (hr : ChunkFits s)
    (ho : s.ctx.totalLen.toNat + s.lenIn.value.toNat ≤ 2 ^ 64 - 1) :
    exec .write s = withSource s.srcAddr.value.toNat s.lenIn.value.toNat s fun d =>
      .next (noteUses (chunkUses s) (completeCommand (absorb s d))) := by
  refine (if_neg (by simp [hv])).trans (chunk_ok hr fun a ha => (if_neg (Nat.not_lt.2 ho)).trans ?_)
  simp only [absorb_noteUses]
  exact withSource_chunk _ _ ha

theorem exec_hash_addrRange (hr : ¬ ChunkFits s) :
    exec .hash s = .next (noteUses (commandUses .hash s) (raiseCmdError .addrRange s)) := by
  obtain ⟨h0, hb⟩ := not_chunkFits_iff.1 hr
  refine (execHash_eq s).trans ((chunk_beyond (s := noteUses (operandUse s .seedIn) s) h0 hb).trans ?_)
  rw [chunkUses_noteUses, commandUses, ← noteUses_append]
  rfl

/-- A HASH that passes its check reads its source and takes the digest of the bytes. -/
theorem exec_hash_source (hr : ChunkFits s) :
    exec .hash s = withSource s.srcAddr.value.toNat s.lenIn.value.toNat s fun d =>
      .next (noteUses (commandUses .hash s) (completeCommand (setDigest (xxh64 d s.seedIn.value) s))) := by
  refine (execHash_eq s).trans (chunk_ok (s := noteUses (operandUse s .seedIn) s) hr fun a ha => ?_)
  rw [chunkUses_noteUses, noteUses_append]
  exact withSource_chunk (s := s) _ _ ha

end commands

/-- Settles O26: both commands that pass their checks read their source, and the reads stop where the range does not let
them go on. -/
theorem unreadableRangeStops : Obligations.UnreadableRangeStops := by
  intro s hr
  have hfits : ChunkFits s := fun _ => hr
  refine ⟨fun hside => ⟨fun hv ho => ?_, ?_⟩, fun hpure hnone => ⟨fun hv ho => ?_, ?_⟩⟩
  · rw [exec_write_source hv hfits ho, withSource_sideEffects hside]
  · rw [exec_hash_source hfits, withSource_sideEffects hside]
  · rw [exec_write_source hv hfits ho, withSource_notAdmitted hpure hnone]
  · rw [exec_hash_source hfits, withSource_notAdmitted hpure hnone]

/-- The state over another source memory. -/
def State.withMem (m : Memory) (s : State) : State := { s with mem := m }

/-- Absorbing a chunk does not look at the source memory. -/
theorem absorb_withMem (m : Memory) (s : State) (d : List Byte) : absorb (s.withMem m) d = (absorb s d).withMem m := by
  by_cases h : s.ctx.bufLen.toNat + d.length < 32 <;> simp only [absorb, State.withMem, h, if_true, if_false]

section otherMemory
variable {s t : State} {m : Memory}
  (hm : ∀ i < s.lenIn.value.toNat,
    Memory.read m (s.srcAddr.value.toNat + i) = Memory.read s.mem (s.srcAddr.value.toNat + i))
include hm

/-- HASH answers alike over a memory with the same bytes in its range: its check does not look at memory. -/
theorem exec_hash_withMem (h : exec .hash s = .next t) : exec .hash (s.withMem m) = .next (t.withMem m) := by
  by_cases hr : ChunkFits s
  · rw [exec_hash_source hr] at h
    rw [exec_hash_source (s := s.withMem m) hr]
    exact withSource_transfer h rfl hm fun d hd => by cases hd; rfl
  · rw [exec_hash_addrRange hr] at h
    cases h
    exact exec_hash_addrRange (s := s.withMem m) hr

/-- WRITE answers alike too: its three checks do not look at memory either. -/
theorem exec_write_withMem (h : exec .write s = .next t) : exec .write (s.withMem m) = .next (t.withMem m) := by
  cases hv : s.ctx.valid with
  | false =>
    rw [exec_write_noContext hv] at h
    cases h
    exact exec_write_noContext (s := s.withMem m) hv
  | true =>
    by_cases hr : ChunkFits s
    case neg =>
      rw [exec_write_addrRange hv hr] at h
      cases h
      exact exec_write_addrRange (s := s.withMem m) hv hr
    obtain ho | ho := Nat.lt_or_ge (2 ^ 64 - 1) (s.ctx.totalLen.toNat + s.lenIn.value.toNat)
    · rw [exec_write_lenOverflow hv hr ho] at h
      cases h
      exact exec_write_lenOverflow (s := s.withMem m) hv hr ho
    · rw [exec_write_source hv hr ho] at h
      rw [exec_write_source (s := s.withMem m) hv hr ho]
      exact withSource_transfer h rfl hm fun d hd => by rw [absorb_withMem]; cases hd; rfl

end otherMemory

/-- Settles O11: the two commands over another memory. -/
theorem commandsReadOnlyTheirRange : Obligations.CommandsReadOnlyTheirRange := fun _ _ _ hm =>
  ⟨exec_hash_withMem hm, exec_write_withMem hm⟩

/-- An address is in no open range when it lies below or past each. -/
theorem inOpenRange_eq_false {s : State} {a : Nat} (h : ∀ r ∈ s.unobserved, a < r.1 ∨ r.1 + r.2 ≤ a) :
    inOpenRange s a = false := by
  refine List.any_eq_false.2 fun r hr => ?_
  have := h r hr
  simp only [Bool.and_eq_true, decide_eq_true_eq]
  omega

/-- A store to source memory in no open range writes that byte and nothing else (20_memory.md rule R64). -/
theorem runEvent_store {s : State} {a : Nat} (b : Byte) (ha : a < 2 ^ s.params.addrW)
    (hkind : sourceKind s.params.regions a = some .memory) (hopen : inOpenRange s a = false) :
    runEvent (.store a b) s = .next { s with mem := Memory.write s.mem a b } := by
  simp only [runEvent, hostStore, ha, hkind, hopen, and_self, if_true, Bool.false_eq_true, if_false]

/-- Settles O45: the step takes the store, and a canonical memory reads as written. -/
theorem hostStoreIsRead : Obligations.HostStoreIsRead := by
  intro s rest a b hw hp ha hkind hopen
  have hstep : step s = .next { s with mem := Memory.write s.mem a b, pending := rest } :=
    (step_cons hp).trans (runEvent_store (s := takeEvent rest s) b ha hkind (inOpenRange_eq_false hopen))
  exact ⟨_, hstep, Memory.read_write_same hw a b, fun x hx => Memory.read_write_other hw b hx, Memory.write_wf hw a b, rfl⟩

/-- The legal access shapes (20_memory.md rule R61). -/
theorem legalAccess_iff (off width : Nat) :
    legalAccess off width = true ↔ (width = 4 ∧ off % 4 = 0) ∨ (width = 8 ∧ off % 8 = 0) := by
  simp [legalAccess]

/-- Settles O43: both accesses find their offset in the window and are refused for their shape, before anything else. -/
theorem illegalAccessRefused : Obligations.IllegalAccessRefused := by
  intro s off width hoff hshape
  have hillegal : legalAccess off width = false := Bool.eq_false_iff.2 (mt (legalAccess_iff off width).1 hshape)
  have hwin := windowOffset_base s.params hoff
  refine ⟨?_, fun v => ?_⟩
  · simp only [runEvent, hostRead, hwin, if_pos hillegal]
  · simp only [runEvent, hostWrite, hwin, if_pos hillegal]

/-- The operand register with bits [31:0] written (20_memory.md rule R61). -/
def OperandReg.writeLo (reg : OperandReg) (v : Word32) : OperandReg :=
  ⟨joinHalves (hiHalf reg.value) v, true, reg.hiWritten⟩

/-- The operand register with bits [63:32] written. -/
def OperandReg.writeHi (reg : OperandReg) (v : Word32) : OperandReg :=
  ⟨joinHalves v (loHalf reg.value), reg.loWritten, true⟩

/-- A 4-byte store at an 8-aligned offset writes the low half. -/
theorem OperandReg.store_lo (reg : OperandReg) {off : Nat} (h : off % 8 = 0) (v : Word32) :
    reg.store off 4 (v.setWidth 64) = reg.writeLo v := by
  simp [OperandReg.store, OperandReg.writeLo, h]

/-- At any other offset it writes the high half. -/
theorem OperandReg.store_hi (reg : OperandReg) {off : Nat} (h : off % 8 ≠ 0) (v : Word32) :
    reg.store off 4 (v.setWidth 64) = reg.writeHi v := by
  simp [OperandReg.store, OperandReg.writeHi, h]

section halves
variable (s : State) (r : OperandName) {off : Nat} (hoff : off = operandOffset r ∨ off = operandOffset r + 4)
include hoff

/-- A 4-byte write to an operand register, at its offset or 4 above it, stores into that register alone. -/
theorem runEvent_write32_operand (v : Word32) :
    runEvent (w32 s.params off v) s = .next (s.setOperand ((operandReg s r).store off 4 (v.setWidth 64)) r) := by
  have hlt : off < windowSize := by obtain rfl | rfl := hoff <;> cases r <;> decide
  have hwin : windowOffset s.params (s.params.xxhBase + off) = some off := windowOffset_base _ hlt
  simp only [w32, runEvent, hostWrite, hwin]
  obtain rfl | rfl := hoff <;> cases r <;> rfl

/-- A 4-byte read there gives the half of the register's value, and is no read of a result. -/
theorem runEvent_read32_operand :
    runEvent (r32 s.params off) s = .next (logRead (s.params.xxhBase + off) 4 (readValue s off 4) s) := by
  have hlt : off < windowSize := by obtain rfl | rfl := hoff <;> cases r <;> decide
  have hlegal : legalAccess off 4 = true := by obtain rfl | rfl := hoff <;> cases r <;> decide
  have hcovers : (coversStatus off 4 || coversDigest off) = false := by
    obtain rfl | rfl := hoff <;> cases r <;> decide
  refine (runEvent_read hlt hlegal (by rw [hcovers, Bool.and_false])).trans ?_
  obtain rfl | rfl := hoff <;> cases r <;> rfl

end halves

theorem runEvent_writeLo_operand (s : State) (r : OperandName) (v : Word32) :
    runEvent (w32 s.params (operandOffset r) v) s = .next (s.setOperand ((operandReg s r).writeLo v) r) := by
  rw [runEvent_write32_operand s r (.inl rfl), OperandReg.store_lo _ (by cases r <;> rfl)]

theorem runEvent_writeHi_operand (s : State) (r : OperandName) (v : Word32) :
    runEvent (w32 s.params (operandOffset r + 4) v) s = .next (s.setOperand ((operandReg s r).writeHi v) r) := by
  rw [runEvent_write32_operand s r (.inr rfl), OperandReg.store_hi _ (by cases r <;> decide)]

theorem readValue_operand_lo (s : State) (r : OperandName) :
    readValue s (operandOffset r) 4 = (loHalf (operandReg s r).value).setWidth 64 := by
  cases r <;> rfl

theorem readValue_operand_hi (s : State) (r : OperandName) :
    readValue s (operandOffset r + 4) 4 = (hiHalf (operandReg s r).value).setWidth 64 := by
  cases r <;> rfl

/-- Settles O41: each write replaces the one register, with the half written; each read gives a half of what it holds. -/
theorem halfWriteChangesItsHalf : Obligations.HalfWriteChangesItsHalf := by
  intro s r v
  refine ⟨⟨_, runEvent_writeLo_operand s r v, ?_⟩, ⟨_, runEvent_writeHi_operand s r v, ?_⟩, ?_, ?_, ?_⟩
  · simp +contextual [operandReg_setOperand, OperandReg.writeLo]
  · simp +contextual [operandReg_setOperand, OperandReg.writeHi]
  · rw [OperandReg.written, Bool.and_eq_true]
  · rw [← readValue_operand_lo]
    exact runEvent_read32_operand s r (.inl rfl)
  · rw [← readValue_operand_hi]
    exact runEvent_read32_operand s r (.inr rfl)

end Sys2Proof.Machine
end

section
/-! Encoding (30_encoding.md): a CMD word or a label decodes to a row exactly when it is the row's encoding (rules R74 and R82),
and the bytes that lay it out decode to the same row. -/
namespace Sys2Proof.Machine

/-- A CMD word whose reserved bits are zero is its opcode. -/
theorem setWidth_opcode {w : Word32} (hr : w.extractLsb' 8 24 = 0) : (w.extractLsb' 0 8).setWidth 32 = w := by
  apply BitVec.eq_of_toNat_eq
  have hhigh := congrArg BitVec.toNat hr
  simp only [BitVec.extractLsb'_toNat, Nat.reducePow, BitVec.ofNat_eq_ofNat, BitVec.toNat_ofNat, Nat.zero_mod,
    BitVec.toNat_setWidth, Nat.shiftRight_zero] at hhigh ⊢
  omega

/-- A CMD word decodes to the row whose encoding it is, and to no other (rules R72 and R74). -/
theorem decodeCmd_ok_iff {w : Word32} {i : Instr} : decodeCmd w = .ok i ↔ encode i = .cmd32 w := by
  constructor
  · intro h
    simp only [decodeCmd] at h
    split_ifs at h with hr hinit hwrite hfinish hhash <;> cases h
    all_goals rw [← setWidth_opcode (not_not.1 hr)]
    · rw [hinit]; rfl
    · rw [hwrite]; rfl
    · rw [hfinish]; rfl
    · rw [hhash]; rfl
  · intro h
    cases i <;> cases h <;> rfl

/-- A label names the row whose encoding it is, and no other (rule R82). -/
theorem decodeUop_ok_iff {l : BitVec 5} {i : Instr} : decodeUop l = .ok i ↔ encode i = .uop l := by
  revert l
  cases i <;> decide

/-- The byte of a label decodes as the label. -/
@[simp] theorem decode_encodedBytes_uop (l : BitVec 5) : decode (encodedBytes (.uop l)) = decodeUop l := by
  revert l
  decide

/-- A byte that decodes to a row is the label of the row, zero-extended. -/
theorem eq_encodedBytes_of_decodeLabelByte {b : Byte} {i : Instr} (h : decodeLabelByte b = .ok i) :
    [b] = encodedBytes (encode i) := by
  have hbyte : ∀ b : Byte, b.extractLsb' 5 3 = 0 → (b.extractLsb' 0 5).setWidth 8 = b := by decide
  unfold decodeLabelByte at h
  split at h
  · cases h
  · rw [decodeUop_ok_iff.1 h, encodedBytes, hbyte b (not_not.1 ‹_›)]

/-- The bytes of a CMD word decode as the word. -/
@[simp] theorem decode_encodedBytes_cmd32 (w : Word32) : decode (encodedBytes (.cmd32 w)) = decodeCmd w :=
  congrArg decodeCmd (cmdWord_bytes w)

/-- Four bytes are the bytes of the CMD word they make. -/
theorem encodedBytes_cmdWord (b0 b1 b2 b3 : Byte) : encodedBytes (.cmd32 (cmdWord b0 b1 b2 b3)) = [b0, b1, b2, b3] := by
  obtain ⟨h0, h1, h2, h3⟩ := bytes_cmdWord b0 b1 b2 b3
  rw [encodedBytes, h0, h1, h2, h3]

/-- Bytes decode to a row exactly when they lay out its encoding: one byte a label, four bytes a CMD word. -/
theorem decode_ok_iff {bs : List Byte} {i : Instr} : decode bs = .ok i ↔ bs = encodedBytes (encode i) := by
  constructor
  · intro h
    unfold decode at h
    split at h
    · exact eq_encodedBytes_of_decodeLabelByte h
    · rw [decodeCmd_ok_iff.1 h, encodedBytes_cmdWord]
    · cases h
  · rintro rfl
    cases he : encode i with
    | cmd32 w => rw [decode_encodedBytes_cmd32]; exact decodeCmd_ok_iff.2 he
    | uop l => rw [decode_encodedBytes_uop]; exact decodeUop_ok_iff.2 he

/-- Settles O13: decoding is the inverse of laying out the encoding, for every row. -/
theorem decodeInvertsEncode : Obligations.DecodeInvertsEncode := fun _ _ _ => decode_ok_iff

/-- A word is rejected exactly when it is the encoding of none of the four commands. -/
theorem decodeCmd_error_iff {w : Word32} : (∃ e, decodeCmd w = .error e) ↔
    encode .init ≠ .cmd32 w ∧ encode .write ≠ .cmd32 w ∧ encode .finish ≠ .cmd32 w ∧ encode .hash ≠ .cmd32 w := by
  simp only [ne_eq, ← decodeCmd_ok_iff]
  cases h : decodeCmd w with
  | error e => simp
  | ok i => obtain rfl | rfl | rfl | rfl := decodeCmd_ok h <;> simp

/-- Settles O12: a word decodes to a command when it is that command's encoding. -/
theorem commandWordsDecodeExactly : Obligations.CommandWordsDecodeExactly := by
  intro w
  have hcmd : ∀ c, Encoded.cmd32 c = .cmd32 w ↔ w = c := by simp [eq_comm]
  rw [decodeCmd_error_iff]
  simp only [decodeCmd_ok_iff, encode, hcmd, ne_eq, and_self]

/-- A row's bits name the instruction their bytes decode to. -/
theorem decodeTableWord_eq_some {nbits w : Nat} {i : Instr} :
    decodeTableWord nbits w = some i ↔ decode (leBytes ((nbits + 7) / 8) w) = .ok i := by
  unfold decodeTableWord
  cases decode (leBytes ((nbits + 7) / 8) w) <;> simp

/-- The four bytes of a number are those of the CMD word it is. -/
theorem leBytes_four (w : Nat) : leBytes 4 w = encodedBytes (.cmd32 (BitVec.ofNat 32 w)) := by
  simp only [leBytes, encodedBytes, List.cons.injEq, and_true]
  refine ⟨?_, ?_, ?_, ?_⟩ <;> apply BitVec.eq_of_toNat_eq <;>
    simp only [BitVec.extractLsb'_toNat, BitVec.toNat_ofNat, Nat.shiftRight_eq_div_pow] <;> omega

/-- A 32-bit row is a CMD word. -/
theorem decodeTableWord_cmd {w : Nat} {i : Instr} :
    decodeTableWord 32 w = some i ↔ decodeCmd (BitVec.ofNat 32 w) = .ok i := by
  rw [decodeTableWord_eq_some, ← decode_encodedBytes_cmd32, ← leBytes_four]

/-- An 8-bit row is a byte that carries a label. -/
theorem decodeTableWord_label {w : Nat} {i : Instr} :
    decodeTableWord 8 w = some i ↔ decodeLabelByte (BitVec.ofNat 8 w) = .ok i := decodeTableWord_eq_some

/-- Settles O14: five rows decode from their own bits, and the four other words name nothing. -/
theorem sampleWordsDecode : Obligations.SampleWordsDecode :=
  ⟨Laws.TableRow.write.2, Laws.TableRow.hash.2, Laws.TableRow.laneInit, Laws.TableRow.stripes, Laws.TableRow.tail,
    rfl, rfl, rfl, rfl⟩

/-- Settles O16: the step takes the event, which runs the operation its label names. -/
theorem stepRunsLabelledOperation : Obligations.StepRunsLabelledOperation := by
  intro s rest label i hp hd
  calc step s = runUop label (takeEvent rest s) := step_cons hp
    _ = exec i (takeEvent rest s) := by rw [runUop, hd]

/-- Settles O17: the event put in front is a CMD write of the word, or the event of the label. -/
theorem fetchWordRunsDecodedInstruction : Obligations.FetchWordRunsDecodedInstruction := by
  refine fun s w i => ⟨fun _ h => ?_, fun _ h => ?_⟩
  · have hd : decodeCmd (loHalf ((BitVec.ofNat 32 w).setWidth 64)) = .ok i := by
      rw [loHalf_setWidth]; exact decodeTableWord_cmd.1 h
    have hrange : sourceRange i (s.withFetchWord 32 w) = sourceRange i s := by cases i <;> rfl
    rw [stepRunsWrittenCommand (s.withFetchWord 32 w) s.pending 4 _ i rfl (.inl rfl) rfl hd, hrange]
    rfl
  · exact stepRunsLabelledOperation (s.withFetchWord 8 w) s.pending _ i rfl (decodeTableWord_label.1 h)

/-- Settles O51: row by row; what is left in the record is a function of the record alone. -/
theorem datapathTouchesNoBlockState : Obligations.DatapathTouchesNoBlockState := by
  intro i hinit hwrite hfinish hhash s u hdp
  cases i with
  | init => exact absurd rfl hinit
  | write => exact absurd rfl hwrite
  | finish => exact absurd rfl hfinish
  | hash => exact absurd rfl hhash
  | _ => exact ⟨_, rfl, by rw [hdp]; rfl⟩

end Sys2Proof.Machine
end

section
/-! The read-only and reserved offsets of the window (30_encoding.md rule R81), and the pseudo-instruction `xxh.hash` (rule
R86), run event by event. -/
namespace Sys2Proof.Machine

/-- From DIGEST on the window holds no operand register and nothing below one. -/
theorem past_operands {off : Nat} (h : offDigest ≤ off) :
    off ≠ offCmd ∧ ¬ off < offSeedIn ∧ ¬ off < offSrcAddr ∧ ¬ off < offLenIn ∧ ¬ off < offDigest := by
  simp only [offCmd, offSeedIn, offSrcAddr, offLenIn, offDigest] at h ⊢
  omega

/-- A legal write to STATUS, or past the operand registers, is ignored. -/
theorem runEvent_write_ignored {s : State} {off width : Nat} (hlegal : legalAccess off width = true)
    (hlt : off < windowSize) (hoff : off = offStatus ∨ offDigest ≤ off) (v : Word) :
    runEvent (.write (s.params.xxhBase + off) width v) s = .next s := by
  simp only [runEvent, hostWrite, windowOffset_base _ hlt, hlegal, Bool.true_eq_false, if_false]
  obtain rfl | hge := hoff
  · rfl
  · obtain ⟨hcmd, hseed, hsrc, hlen, hdigest⟩ := past_operands hge
    simp only [hcmd, hseed, hsrc, hlen, hdigest, if_false]

/-- An access of the reserved offsets, or of CMD alone, covers neither STATUS nor DIGEST. -/
theorem covers_zeroOffset {off width : Nat} (h : 0x28 ≤ off ∨ (off = offCmd ∧ width = 4)) :
    coversStatus off width = false ∧ coversDigest off = false := by
  obtain hge | ⟨rfl, rfl⟩ := h
  · constructor
    · simp [coversStatus, offStatus, offCmd, show off ≠ 4 by omega, show off ≠ 0 by omega]
    · simp [coversDigest, offDigest, show ¬ off < 40 by omega]
  · decide

/-- What the reserved offsets and CMD read. -/
theorem readValue_zeroOffset (s : State) {off width : Nat} (h : 0x28 ≤ off ∨ (off = offCmd ∧ width = 4)) :
    readValue s off width = 0 := by
  obtain hge | ⟨rfl, rfl⟩ := h
  · have hslot : slotValue s off = 0 := by
      obtain ⟨-, hseed, hsrc, hlen, hdigest⟩ := past_operands (Nat.le_trans (by decide) hge)
      have hres : ¬ off < offDigest + 8 := Nat.not_lt.2 hge
      simp only [slotValue, hseed, hsrc, hlen, hdigest, hres, if_false]
    rw [readValue, hslot]
    split_ifs <;> rfl
  · show (loHalf (joinHalves (statusWord s) 0)).setWidth 64 = 0
    rw [loHalf_joinHalves]; rfl

/-- Settles O42: the writes fall through to no register, and the reads give 0 and observe nothing. -/
theorem readOnlyAndReservedOffsets : Obligations.ReadOnlyAndReservedOffsets := by
  intro s off width hshape hlt
  have hlegal := (legalAccess_iff off width).2 hshape
  refine ⟨fun hoff => runEvent_write_ignored hlegal hlt hoff, fun hoff => ?_⟩
  obtain ⟨hstatus, hdigest⟩ := covers_zeroOffset hoff
  rw [runEvent_read hlt hlegal (by simp [hstatus, hdigest]), readValue_zeroOffset s hoff]
  simp [afterRead, digestUse, hstatus, hdigest]

section events
/-! The steps that take the events of a host program. -/
variable {s : State} {rest : List Event}

/-- A run whose first step goes on runs on from there. -/
theorem steps_succ {t : State} {k : Nat} (h : step s = .next t) : steps (k + 1) s = steps k t := by
  rw [steps, h]

/-- An 8-byte write of an operand register. -/
theorem step_write_operand {r : OperandName} {v : Word} (hp : s.pending = w64 s.params (operandOffset r) v :: rest) :
    step s = .next ((takeEvent rest s).setOperand ⟨v, true, true⟩ r) :=
  (step_cons hp).trans (runEvent_write_operand (takeEvent rest s) r v)

/-- A HASH of written operands uses no unspecified value (60_exceptions.md rule R215). -/
theorem commandUses_hash_written (hw : ∀ r, (operandReg s r).written = true) : commandUses .hash s = [] := by
  simp [commandUses, chunkUses, operandUse, hw]

/-- A CMD write of HASH with written operands and a ready chunk. -/
theorem step_hash (hp : s.pending = w32 s.params offCmd 0x00000004 :: rest) (hb : s.busy = false)
    (hr : ChunkReady s) (hw : ∀ r, (operandReg s r).written = true) : step s = .next { s with
      digest := xxh64 (inputBytes s) s.seedIn.value, digestValid := true, err := .none,
      unobserved := sourceRange .hash s ++ s.unobserved, pending := rest } := by
  rw [stepRunsWrittenCommand s rest 4 _ .hash hp (.inl rfl) hb rfl, hash_ready (by exact hr),
    commandUses_hash_written (by exact hw), noteUses_nil, completeCommand, ← hb]
  rfl

/-- A WAIT while BUSY = 0 reads STATUS once. -/
theorem step_wait (hp : s.pending = .wait :: rest) (hb : s.busy = false) :
    step s = .next (logRead (s.params.xxhBase + offStatus) 4 ((statusWord s).setWidth 64)
      (observeIdle (takeEvent rest s))) := by
  obtain ⟨-, hstatus, -⟩ := statusLayout
  exact (step_cons hp).trans (hstatus (takeEvent rest s) hb).2

/-- A read of a valid DIGEST. -/
theorem step_read_digest (hp : s.pending = r64 s.params offDigest :: rest) (hb : s.busy = false)
    (hv : s.digestValid = true) :
    step s = .next (logRead (s.params.xxhBase + offDigest) 8 s.digest (takeEvent rest s)) := by
  have huse : digestUse offDigest (takeEvent rest s) = [] := by simp [digestUse, hv]
  refine (step_cons hp).trans ((runEvent_read (s := takeEvent rest s) (off := offDigest) (by decide) rfl ?_).trans ?_)
  · rw [takeEvent_busy, hb, Bool.false_and]
  · rw [huse]; rfl

/-- `SEED` in front of a run. -/
theorem steps_pseudoSeed {seed : Word} {k : Nat} (hp : s.pending = pseudoSeed s.params seed ++ rest) :
    steps (k + 1) s = steps k { s with seedIn := ⟨seed, true, true⟩, pending := rest } :=
  steps_succ (step_write_operand (r := .seedIn) hp)

/-- `SRC` in front of a run. -/
theorem steps_pseudoSrc {a n : Word} {k : Nat} (hp : s.pending = pseudoSrc s.params a n ++ rest) :
    steps (k + 2) s = steps k { s with
      srcAddr := ⟨a, true, true⟩, lenIn := ⟨n, true, true⟩, pending := rest } :=
  (steps_succ (step_write_operand (r := .srcAddr) hp)).trans (steps_succ (step_write_operand (r := .lenIn) rfl))

end events

/-- `xxh.hash` in front of any program, from a state that is not busy: six steps that write the operands, run HASH over them,
observe BUSY = 0 (`status` is the value that read gave) and read the digest. -/
theorem steps_pseudoHash {s : State} {a n seed : Word} {rest : List Event} (hb : s.busy = false)
    (hp : s.pending = pseudoHash s.params a n seed ++ rest) (hr : n ≠ 0 → RangeReady s a.toNat n.toNat) :
    ∃ status, steps 6 s = .next { s with
      seedIn := ⟨seed, true, true⟩, srcAddr := ⟨a, true, true⟩, lenIn := ⟨n, true, true⟩,
      digest := xxh64 (rangeBytes s.mem a.toNat n.toNat) seed, digestValid := true, err := .none, unobserved := [],
      reads := ⟨s.params.xxhBase + offDigest, 8, xxh64 (rangeBytes s.mem a.toNat n.toNat) seed⟩ :: status :: s.reads,
      pending := rest } :=
  ⟨_, calc steps 6 s
      _ = steps 5 _ := steps_pseudoSeed hp
      _ = steps 3 _ := steps_pseudoSrc rfl
      _ = steps 2 _ := steps_succ (step_hash rfl hb hr fun r => by cases r <;> rfl)
      _ = steps 1 _ := steps_succ (step_wait rfl hb)
      _ = steps 0 _ := steps_succ (step_read_digest rfl hb rfl)
      _ = .next _ := rfl⟩

/-- Settles O38: the six steps of `xxh.hash` with nothing after it. -/
theorem hashPseudoReadsXxh64 : Obligations.HashPseudoReadsXxh64 := by
  intro s a n seed hb hp hr
  obtain ⟨status, h⟩ := steps_pseudoHash (rest := []) hb (by rw [hp, List.append_nil]) hr
  rw [hp]
  exact ⟨_, h, rfl, rfl, rfl, rfl⟩

end Sys2Proof.Machine
end

section
/-! The mixing core (40_mixing_core.md): its operations are bijections on u64 (rules R101, R104 and R108), complete with their
formulas' values (rules R102 to R108), and compose to XXH64 (rule R109). -/
namespace Sys2Proof.Machine

open Function

/-- There are finitely many words, so an injection between them misses none. -/
theorem bijective_of_injective {f : Word → Word} (h : Injective f) : Bijective f :=
  haveI : Finite Word := .of_injective _ BitVec.toFin_injective
  Finite.injective_iff_bijective.1 h

/-- An odd word is coprime to 2 ^ 64, so it cancels from a product. -/
theorem mul_bijective_of_odd {p : Word} (hp : p.getLsbD 0 = true) : Bijective fun x : Word => x * p := by
  refine bijective_of_injective fun x y h => ?_
  have hcoprime : Nat.Coprime (2 ^ 64) p.toNat := by
    have hodd : Odd p.toNat := by simpa [BitVec.getLsbD, Nat.odd_iff] using hp
    exact (Nat.coprime_two_left.2 hodd).pow_left 64
  have hmod : x.toNat * p.toNat ≡ y.toNat * p.toNat [MOD 2 ^ 64] := by
    simpa only [Nat.ModEq, BitVec.toNat_mul] using congrArg BitVec.toNat h
  exact BitVec.eq_of_toNat_eq
    ((Nat.ModEq.cancel_right_of_coprime hcoprime hmod).eq_of_lt_of_lt x.isLt y.isLt)

theorem prime1_odd : prime1.getLsbD 0 = true := by decide
theorem prime2_odd : prime2.getLsbD 0 = true := by decide
theorem prime3_odd : prime3.getLsbD 0 = true := by decide

/-- A rotation loses no bit: bit i of the word stands r places above, around the word's end. -/
theorem rotl64_bijective {r : Nat} (hr : r < 64) : Bijective fun a => rotl64 a r := by
  refine bijective_of_injective fun a b h => BitVec.eq_of_getLsbD_eq fun i hi => ?_
  have hbit : ∀ c : Word, (rotl64 c r).getLsbD ((i + r) % 64) = c.getLsbD i := fun c => by
    rw [getLsbD_rotl64 c hr (Nat.mod_lt _ (by decide)), show ((i + r) % 64 + (64 - r)) % 64 = i by omega]
  rw [← hbit a, ← hbit b]
  exact congrArg (BitVec.getLsbD · _) h

/-- A shift to the right makes every word but zero smaller. -/
theorem eq_zero_of_ushiftRight_eq {d : Word} {k : Nat} (hk : 0 < k) (h : d >>> k = d) : d = 0 := by
  by_contra hd
  have hpos : 0 < d.toNat := Nat.pos_of_ne_zero fun h0 => hd (BitVec.eq_of_toNat_eq h0)
  have hlt : d.toNat / 2 ^ k < d.toNat := Nat.div_lt_self hpos (Nat.one_lt_two_pow hk.ne')
  rw [← Nat.shiftRight_eq_div_pow, ← BitVec.toNat_ushiftRight, h] at hlt
  exact lt_irrefl _ hlt

/-- Two words with the same image differ by a word that the shift keeps, which is zero. -/
theorem xorShift_bijective {k : Nat} (hk : 0 < k) : Bijective fun h => xorShift h k := by
  refine bijective_of_injective fun x y h => ?_
  have h : x ^^^ x >>> k = y ^^^ y >>> k := h
  have hshift : (x ^^^ y) >>> k = x ^^^ y := by
    rw [BitVec.ushiftRight_xor_distrib]
    calc x >>> k ^^^ y >>> k = x ^^^ (x ^^^ x >>> k) ^^^ y >>> k := by simp
      _ = x ^^^ y := by rw [h, BitVec.xor_assoc, BitVec.xor_assoc]; simp
  exact BitVec.xor_eq_zero_iff.1 (eq_zero_of_ushiftRight_eq hk hshift)

/-- What ROUND does to the sum of its operands. -/
theorem rotl64_mul_prime1_bijective : Bijective fun v => rotl64 v 31 * prime1 :=
  (mul_bijective_of_odd prime1_odd).comp (rotl64_bijective (by decide))

/-- Settles O59: each of the three is odd. -/
theorem primeMultiplicationIsBijective : Obligations.PrimeMultiplicationIsBijective := by
  rintro p (rfl | rfl | rfl)
  · exact ⟨prime1_odd, mul_bijective_of_odd prime1_odd⟩
  · exact ⟨prime2_odd, mul_bijective_of_odd prime2_odd⟩
  · exact ⟨prime3_odd, mul_bijective_of_odd prime3_odd⟩

/-- Settles O58: the sum is a bijection in either operand, the lane's product with P2 being one. -/
theorem roundIsBijective : Obligations.RoundIsBijective :=
  ⟨fun lane => rotl64_mul_prime1_bijective.comp (AddGroup.addRight_bijective (lane * prime2)),
    fun acc => rotl64_mul_prime1_bijective.comp
      ((AddGroup.addLeft_bijective acc).comp (mul_bijective_of_odd prime2_odd))⟩

/-- Settles O57: three shift steps with an odd product after each of the first two. -/
theorem avalancheIsBijective : Obligations.AvalancheIsBijective := by
  have first := (mul_bijective_of_odd prime2_odd).comp (xorShift_bijective (k := 33) (by decide))
  have second := (mul_bijective_of_odd prime3_odd).comp (xorShift_bijective (k := 29) (by decide))
  exact (xorShift_bijective (k := 32) (by decide)).comp (second.comp first)

/-- ROUND with the library's rotation. -/
theorem mixRound_eq (acc lane : Word) : mixRound acc lane = (acc + lane * prime2).rotateLeft 31 * prime1 := by
  rw [mixRound, rotl64_eq_rotateLeft _ (by decide)]

/-- MERGE with the library's rotation; its ROUND starts from zero. -/
theorem mergeLane_eq (acc lane : Word) :
    mergeLane acc lane = (acc ^^^ (lane * prime2).rotateLeft 31 * prime1) * prime1 + prime4 := by
  rw [mergeLane, mixRound_eq, zero_add]

/-- CONVERGE with the library's rotations. -/
theorem converge_eq (q : Quad) : converge q = mergeLane (mergeLane (mergeLane (mergeLane
    (q.acc1.rotateLeft 1 + q.acc2.rotateLeft 7 + q.acc3.rotateLeft 12 + q.acc4.rotateLeft 18)
    q.acc1) q.acc2) q.acc3) q.acc4 := by
  simp only [converge, rotl64_eq_rotateLeft _ (show (1 : Nat) < 64 by decide),
    rotl64_eq_rotateLeft _ (show 7 < 64 by decide), rotl64_eq_rotateLeft _ (show 12 < 64 by decide),
    rotl64_eq_rotateLeft _ (show 18 < 64 by decide)]

/-- Settles O49: each operation's answer, its rotations the library's. -/
theorem mixingCoreResults : Obligations.MixingCoreResults := by
  intro s
  refine ⟨exec_laneInit s, exec_shortInit s, ?_, ?_, ?_, exec_lenAdd s, exec_avalanche s⟩
  · rw [exec_round, mixRound_eq]; rfl
  · rw [exec_merge, mergeLane_eq]; rfl
  · rw [exec_converge, converge_eq]

/-- XXH64 below 32 bytes (43_oneshot.md rule R191). -/
theorem xxh64_of_lt {d : List Byte} (h : d.length < 32) (seed : Word) :
    xxh64 d seed = avalanche (tail (lenAdd (shortInit seed) (BitVec.ofNat 64 d.length)) d) := if_pos h

/-- XXH64 from 32 bytes on (43_oneshot.md rule R191). -/
theorem xxh64_of_le {d : List Byte} (h : 32 ≤ d.length) (seed : Word) :
    xxh64 d seed = avalanche (tail (lenAdd (converge (stripes (laneInit seed) d).1) (BitVec.ofNat 64 d.length))
      (d.drop (stripes (laneInit seed) d).2)) := if_neg (Nat.not_lt.2 h)

/-- What a datapath operation leaves, by its record alone, so that a run of several stays small. -/
theorem exists_dp_of_exec {i : Instr} {s : State} {d : Datapath} (h : exec i s = .next { s with dp := d }) :
    ∃ t, exec i s = .next t ∧ t.dp = d := ⟨_, h, rfl⟩

/-- Settles O52: each operation's answer in turn leaves the nested value that XXH64 is. -/
theorem datapathCompositionIsXxh64 : Obligations.DatapathCompositionIsXxh64 := by
  intro s htotal
  constructor
  · intro h
    obtain ⟨s1, h1, hd1⟩ := exists_dp_of_exec (exec_shortInit s)
    obtain ⟨s2, h2, hd2⟩ := exists_dp_of_exec (exec_lenAdd s1)
    obtain ⟨s3, h3, hd3⟩ := exists_dp_of_exec (exec_tail s2)
    obtain ⟨s4, h4, hd4⟩ := exists_dp_of_exec (exec_avalanche s3)
    refine ⟨s1, s2, s3, s4, h1, h2, h3, h4, ?_⟩
    simp only [hd4, hd3, hd2, hd1, htotal, xxh64_of_lt h]
  · intro h
    obtain ⟨s1, h1, hd1⟩ := exists_dp_of_exec (exec_laneInit s)
    obtain ⟨s2, h2, hd2⟩ := exists_dp_of_exec (exec_stripes s1)
    obtain ⟨s3, h3, hd3⟩ := exists_dp_of_exec (exec_converge s2)
    obtain ⟨s4, h4, hd4⟩ := exists_dp_of_exec (exec_lenAdd s3)
    obtain ⟨s5, h5, hd5⟩ := exists_dp_of_exec
      (exec_tail { s4 with dp := { s4.dp with bytes := s4.dp.bytes.drop s4.dp.pos } })
    obtain ⟨s6, h6, hd6⟩ := exists_dp_of_exec (exec_avalanche s5)
    refine ⟨s1, s2, s3, s4, s5, s6, h1, h2, h3, h4, h5, h6, ?_⟩
    simp only [hd6, hd5, hd4, hd3, hd2, hd1, htotal, xxh64_of_le h]

end Sys2Proof.Machine
end

section
/-! The stripe processor and the tail processor (41_stripe_tail.md): the loop of STRIPES and its chunking law (rule R131), the
classes of a tail step by step and counted (rules R136 and R137), and the value each operation completes with. -/
namespace Sys2Proof.Machine

/-- Below 32 bytes the loop of STRIPES does not start. -/
theorem stripes_of_lt (q : Quad) {d : List Byte} (h : d.length < 32) : stripes q d = (q, 0) := by
  simp only [stripes, Nat.div_eq_of_lt h, foldStripes, Nat.mul_zero]

/-- From 32 bytes on the loop of STRIPES takes one stripe and goes on. -/
theorem stripes_of_le (q : Quad) {d : List Byte} (h : 32 ≤ d.length) :
    stripes q d =
      ((stripes (stripe q (d.take 32)) (d.drop 32)).1, (stripes (stripe q (d.take 32)) (d.drop 32)).2 + 32) := by
  have hcount : d.length / 32 = (d.drop 32).length / 32 + 1 := by rw [List.length_drop]; omega
  simp only [stripes, hcount, foldStripes, Nat.mul_succ]

/-- Settles O53: the loop's two cases. -/
theorem stripesLoop : Obligations.StripesLoop := fun q _ => ⟨stripes_of_lt q, stripes_of_le q⟩

/-- Settles O54: the stripes of d and then those of e are the stripes of d ++ e, as d leaves no bytes over. -/
theorem stripesChunkingLaw : Obligations.StripesChunkingLaw := by
  intro q d e hd
  have hlen : 32 * (d.length / 32) = d.length := Nat.mul_div_cancel' (Nat.dvd_of_mod_eq_zero hd)
  have hcount : (d ++ e).length / 32 = d.length / 32 + e.length / 32 := by rw [List.length_append]; omega
  simp only [stripes]
  rw [hcount, foldStripes_add, foldStripes_take _ _ _ _ hlen.le, hlen, List.drop_left]

/-- Below 8 bytes TAIL has no 8-byte class. -/
theorem tail_of_lt (acc : Word) {t : List Byte} (h : t.length < 8) : tail acc t = tailBelow8 acc t := by
  simp only [tail, Nat.div_eq_of_lt h, foldTail8, Nat.mul_zero, List.drop_zero]

/-- From 8 bytes on TAIL takes one word and goes on. -/
theorem tail_of_le (acc : Word) {t : List Byte} (h : 8 ≤ t.length) :
    tail acc t = tail (tail8 acc (le64 t 0)) (t.drop 8) := by
  have hcount : t.length / 8 = (t.drop 8).length / 8 + 1 := by rw [List.length_drop]; omega
  simp only [tail, hcount, foldTail8, List.drop_drop, Nat.mul_succ, Nat.add_comm 8]

/-- Below 4 bytes only the byte class is left. -/
theorem tailBelow8_of_lt (acc : Word) {t : List Byte} (h : t.length < 4) : tailBelow8 acc t = t.foldl tail1 acc :=
  if_neg (Nat.not_le.2 h)

/-- From 4 bytes on the 4-byte class runs once, before the byte class. -/
theorem tailBelow8_of_le (acc : Word) {t : List Byte} (h : 4 ≤ t.length) :
    tailBelow8 acc t = (t.drop 4).foldl tail1 (tail4 acc (le32 t 0)) := if_pos h

/-- Below 4 bytes TAIL is the byte class alone. -/
theorem tail_eq_foldl_tail1 (acc : Word) {t : List Byte} (h : t.length < 4) : tail acc t = t.foldl tail1 acc := by
  rw [tail_of_lt acc (by omega), tailBelow8_of_lt acc h]

/-- Settles O56: one step of each class; after a TAIL4 step and before a TAIL1 step fewer than 4 bytes are left. -/
theorem tailCascade : Obligations.TailCascade := by
  refine fun acc t => ⟨tail_eq_foldl_tail1 acc (by decide), tail_of_le acc, fun h4 h8 => ?_, fun b h => ?_⟩
  · have hrest : (t.drop 4).length < 4 := by rw [List.length_drop]; omega
    rw [tail_of_lt acc h8, tailBelow8_of_le acc h4, tail_eq_foldl_tail1 _ hrest]
  · have hlen : (b :: t).length < 4 := Nat.succ_lt_succ h
    rw [tail_eq_foldl_tail1 acc hlen, tail_eq_foldl_tail1 _ (by omega), List.foldl_cons]

/-- Settles O55: the 8-byte class leaves the length mod 8, which decides whether the 4-byte class runs. -/
theorem tailClassCounts : Obligations.TailClassCounts := by
  intro acc t _
  have hrest : (t.drop (8 * (t.length / 8))).length = t.length % 8 := by rw [List.length_drop]; omega
  refine ⟨fun h => ⟨?_, by omega⟩, fun h => ⟨?_, by rw [List.length_drop]; omega⟩⟩
  · rw [tail, tailBelow8_of_lt _ (by omega)]
  · rw [tail, tailBelow8_of_le _ (by omega), List.drop_drop]
    simp only [le32, List.drop_drop, Nat.add_zero]

/-- TAIL8 with the library's rotation. -/
theorem tail8_eq (acc w : Word) : tail8 acc w = (acc ^^^ mixRound 0 w).rotateLeft 27 * prime1 + prime4 := by
  rw [tail8, rotl64_eq_rotateLeft _ (by decide)]

/-- TAIL4 with the library's rotation. -/
theorem tail4_eq (acc : Word) (w : Word32) :
    tail4 acc w = (acc ^^^ w.setWidth 64 * prime1).rotateLeft 23 * prime2 + prime3 := by
  rw [tail4, rotl64_eq_rotateLeft _ (by decide)]

/-- TAIL1 with the library's rotation. -/
theorem tail1_eq (acc : Word) (b : Byte) :
    tail1 acc b = (acc ^^^ b.setWidth 64 * prime5).rotateLeft 11 * prime1 := by
  rw [tail1, rotl64_eq_rotateLeft _ (by decide)]

/-- Settles O50: each operation's answer, its rotation the library's. -/
theorem stripeTailResults : Obligations.StripeTailResults := by
  intro s
  refine ⟨exec_stripe s, exec_stripes s, ?_, ?_, ?_, exec_tail s⟩
  · rw [exec_tail8, tail8_eq]; rfl
  · rw [exec_tail4, tail4_eq]; rfl
  · rw [exec_tail1, tail1_eq]; rfl

end Sys2Proof.Machine
end

section
/-! The streaming commands one at a time (42_streaming.md): what INIT, WRITE and FINISH write and what they leave alone (rules
R160, R162 and R164), and that FINISH gives XXH64 of the stream held (43_oneshot.md rule R191). -/
namespace Sys2Proof.Machine

/-- A command may write any of these fields: the host's side of the state is not among them. -/
theorem keepsHostSide_blockUpdate (s : State) (busy : Bool) (err : ErrCode) (digestValid : Bool) (digest : Word)
    (ctx : Context) (modelFaults : List UnspecifiedUse) (freeCount : Nat) :
    KeepsHostSide s { s with
      busy := busy, err := err, digestValid := digestValid, digest := digest, ctx := ctx, modelFaults := modelFaults,
      freeCount := freeCount } :=
  ⟨rfl, rfl, rfl, fun _ => rfl, rfl, rfl, rfl, rfl, rfl⟩

/-- Settles O20: INIT answers with the context of LANE_INIT, and writes nothing else of the block but ERR and BUSY. -/
theorem initEstablishesContext : Obligations.InitEstablishesContext := fun s =>
  ⟨_, execInit_eq s, rfl, rfl, rfl, rfl, rfl, rfl, ⟨rfl, rfl⟩, ⟨rfl, rfl⟩, keepsHostSide_blockUpdate .., rfl⟩

/-- What a WRITE that completes leaves alone besides CTX_VALID and CTX_SEED. -/
theorem absorb_frame (s : State) (us : List UnspecifiedUse) (d : List Byte) :
    KeepsDigest s (noteUses us (completeCommand (absorb s d))) ∧
      KeepsHostSide s (noteUses us (completeCommand (absorb s d))) := by
  rw [absorb_eq]
  exact ⟨⟨rfl, rfl⟩, keepsHostSide_blockUpdate ..⟩

/-- Settles O28: a ready WRITE absorbs its input. -/
theorem writeAbsorbsChunk : Obligations.WriteAbsorbsChunk := by
  intro s hv hlt hr hfits
  obtain ⟨hquad, hcarried⟩ := absorb_spec (inputBytes s) hlt
  obtain ⟨hdigest, hhost⟩ := absorb_frame s (chunkUses s) (inputBytes s)
  have htotal := absorb_totalLen_toNat (s := s) (d := inputBytes s) (by rwa [length_inputBytes])
  have hbuf := absorb_bufLen (inputBytes s) hlt
  rw [length_inputBytes] at htotal hbuf
  exact ⟨_, write_ready hv hr hfits, htotal, hquad, hcarried, hbuf, (absorb_ctx_valid _ _).trans hv,
    absorb_ctx_seed _ _, ⟨rfl, rfl⟩, hdigest, hhost, by simp [commandUses, hv]⟩

/-- Absorbing no bytes changes nothing. -/
theorem absorb_nil {s : State} (h : s.ctx.bufLen.toNat < 32) : absorb s [] = s := by
  have hctx : bufferChunk s.ctx [] = s.ctx := by simp [bufferChunk, bufWrite_nil]
  rw [absorb, if_pos (by simpa using h), hctx]

/-- Settles O27: an empty chunk is ready whatever SRC_ADDR holds, and its input is no bytes. -/
theorem emptyWriteIsNoOp : Obligations.EmptyWriteIsNoOp := by
  intro s hv hlt h0
  have hinput : inputBytes s = [] := by simp [inputBytes, rangeBytes, h0]
  have huses : chunkUses s = operandUse s .lenIn := by simp [chunkUses, h0]
  have hfits : s.ctx.totalLen.toNat + s.lenIn.value.toNat ≤ 2 ^ 64 - 1 := by
    have := s.ctx.totalLen.isLt
    simp only [h0, BitVec.ofNat_eq_ofNat, BitVec.toNat_zero]
    omega
  rw [write_ready hv (fun hne => absurd h0 hne) hfits, hinput, absorb_nil hlt, huses]
  rfl

/-- Settles O29: WRITE answers with one of its three errors, which change only ERR and BUSY, or absorbs bytes. -/
theorem writeFrame : Obligations.WriteFrame := by
  intro s t h
  obtain ⟨-, rfl⟩ | ⟨-, ⟨-, -, rfl⟩ | ⟨-, rfl⟩ | ⟨-, rfl⟩⟩ := execWrite_next h
  iterate 3 exact ⟨rfl, rfl, ⟨rfl, rfl⟩, keepsHostSide_blockUpdate .., rfl⟩
  obtain ⟨hdigest, hhost⟩ := absorb_frame s (chunkUses s)
    (sourceBytes s.mem s.srcAddr.value.toNat s.lenIn.value.toNat)
  exact ⟨absorb_ctx_valid _ _, absorb_ctx_seed _ _, hdigest, hhost, rfl⟩

/-- With a context FINISH always completes. -/
theorem exec_finish_valid {s : State} (hv : s.ctx.valid = true) :
    exec .finish s = .next (completeCommand (setDigest (streamDigest s.ctx) s)) := if_neg (by simp [hv])

/-- Settles O30: FINISH writes the digest of the context, by the path TOTAL_LEN chooses, or raises NO_CONTEXT. -/
theorem finishWritesDigest : Obligations.FinishWritesDigest := by
  intro s
  refine ⟨fun hv => ⟨_, exec_finish_valid hv, ?_, rfl, ⟨rfl, rfl⟩, rfl, keepsHostSide_blockUpdate .., rfl, rfl⟩,
    fun hv => ⟨raiseCmdError .noContext s, if_pos hv, rfl, ⟨rfl, rfl⟩, rfl⟩⟩
  show streamDigest s.ctx = _
  rw [streamDigest]
  split_ifs <;> rfl

/-- The digest of a context that holds a stream is XXH64 of it: both choose the path by the length. -/
theorem StreamHolds.streamDigest_eq {c : Context} {seed : Word} {d : List Byte} (h : StreamHolds c seed d) :
    streamDigest c = xxh64 d seed := by
  obtain ⟨-, hseed, htotal, -, hquad, hcarried⟩ := h
  have htotal' : c.totalLen = BitVec.ofNat 64 d.length := by rw [← htotal, BitVec.ofNat_toNat, BitVec.setWidth_eq]
  obtain hlt | hge := Nat.lt_or_ge d.length 32
  · have hall : carried c = d := by rw [hcarried, Nat.div_eq_of_lt hlt]; rfl
    rw [xxh64_of_lt hlt, streamDigest, if_neg (by omega), hseed, htotal', hall]
  · rw [xxh64_of_le hge, streamDigest, if_pos (by omega), hquad, htotal', hcarried]
    rfl

/-- Settles O36: FINISH writes the digest of the context, which is XXH64 of the stream it holds. -/
theorem finishOfStreamIsXxh64 : Obligations.FinishOfStreamIsXxh64 := by
  intro s seed d hd
  obtain ⟨hv, -⟩ := id hd
  exact ⟨_, exec_finish_valid hv, hd.streamDigest_eq, rfl⟩

end Sys2Proof.Machine
end

section
/-! A whole stream (42_streaming.md rules R165 and R166, 43_oneshot.md rule R194): the pseudo-instructions of 30_encoding.md rule
R86 run in front of any program, each call extends the stream the context holds, and so does a list of calls. -/
namespace Sys2Proof.Machine

/-- `t` is where a part of a host program without stores ends from `s`: the rest of the program is still to come, the block is
not busy, the parameters and the memory are as before, and no unspecified value was used. -/
structure RanTo (rest : List Event) (s t : State) : Prop where
  pending : t.pending = rest
  busy : t.busy = false
  params : t.params = s.params
  mem : t.mem = s.mem
  modelFaults : t.modelFaults = s.modelFaults

theorem RanTo.trans {rest rest' : List Event} {s t u : State} (h : RanTo rest s t) (h' : RanTo rest' t u) :
    RanTo rest' s u :=
  ⟨h'.pending, h'.busy, h'.params.trans h.params, h'.mem.trans h.mem, h'.modelFaults.trans h.modelFaults⟩

/-- A run goes on where a run of its first steps ended. -/
theorem steps_add {s t : State} {j : Nat} (k : Nat) (h : steps j s = .next t) : steps (j + k) s = steps k t := by
  induction j generalizing s with
  | zero => cases h; rw [Nat.zero_add]
  | succ j ih =>
    rw [Nat.add_right_comm]
    rw [steps] at h ⊢
    cases hs : step s with
    | next u => rw [hs] at h; exact ih h
    | fault f => rw [hs] at h; cases h
    | refused r => rw [hs] at h; cases h

/-- Two parts of a program, run one after the other. -/
theorem steps_append {es fs : List Event} {s t u : State} (h : steps es.length s = .next t)
    (h' : steps fs.length t = .next u) : steps (es ++ fs).length s = .next u := by
  rw [List.length_append, steps_add _ h, h']

section events
variable {s : State} {rest : List Event}

/-- A written operand register may be read. -/
theorem operandUse_written {r : OperandName} (hw : (operandReg s r).written = true) : operandUse s r = [] := by
  simp [operandUse, hw]

/-- A chunk of written operands uses no unspecified value (60_exceptions.md rule R215). -/
theorem chunkUses_written (ha : s.srcAddr.written = true) (hn : s.lenIn.written = true) : chunkUses s = [] := by
  have hsrc : operandUse s .srcAddr = [] := operandUse_written ha
  have hlen : operandUse s .lenIn = [] := operandUse_written hn
  rw [chunkUses, hsrc, hlen, ite_self, List.append_nil]

/-- A CMD write of INIT with SEED_IN written. -/
theorem step_init (hp : s.pending = w32 s.params offCmd 0x00000001 :: rest) (hb : s.busy = false)
    (hw : s.seedIn.written = true) : step s = .next { s with
      ctx := initContext s.seedIn.value s.freeCount s.ctx, freeCount := s.freeCount + 1, err := .none,
      pending := rest } := by
  rw [stepRunsWrittenCommand s rest 4 _ .init hp (.inl rfl) hb rfl]
  refine (execInit_eq _).trans ?_
  rw [operandUse_written (by exact hw), noteUses_nil, completeCommand, ← hb]
  rfl

/-- A CMD write of WRITE with written operands and a ready chunk appends the chunk to the stream held. -/
theorem step_write {seed : Word} {d : List Byte} (hp : s.pending = w32 s.params offCmd 0x00000002 :: rest)
    (hb : s.busy = false) (ha : s.srcAddr.written = true) (hn : s.lenIn.written = true)
    (hd : StreamHolds s.ctx seed d) (hr : ChunkReady s) (hfits : d.length + s.lenIn.value.toNat ≤ 2 ^ 64 - 1) :
    ∃ t, step s = .next t ∧ RanTo rest s t ∧ StreamHolds t.ctx seed (d ++ inputBytes s) := by
  obtain ⟨hv, -, htotal, -⟩ := id hd
  rw [stepRunsWrittenCommand s rest 4 _ .write hp (.inl rfl) hb rfl, write_ready (by exact hv) (by exact hr)
    (by rw [htotal]; exact hfits), chunkUses_written (by exact ha) (by exact hn), noteUses_nil]
  refine ⟨_, rfl, ?_, StreamHolds.absorb (by exact hd) _ (by simpa using hfits)⟩
  constructor <;> simp

/-- A CMD write of FINISH with a context. -/
theorem step_finish (hp : s.pending = w32 s.params offCmd 0x00000003 :: rest) (hb : s.busy = false)
    (hv : s.ctx.valid = true) : step s = .next { s with
      digest := streamDigest s.ctx, digestValid := true, err := .none, pending := rest } := by
  rw [stepRunsWrittenCommand s rest 4 _ .finish hp (.inl rfl) hb rfl, exec_finish_valid (by exact hv),
    completeCommand, ← hb]
  rfl

end events

section pseudo
/-! Each pseudo-instruction in front of any program, from a state that is not busy. -/
variable {s : State} {rest : List Event} {seed : Word} {d : List Byte} (hb : s.busy = false)
include hb

/-- `xxh.init` starts the empty stream. -/
theorem steps_pseudoInit (hp : s.pending = pseudoInit s.params seed ++ rest) :
    ∃ t, steps 2 s = .next t ∧ RanTo rest s t ∧ StreamHolds t.ctx seed [] :=
  ⟨_, (steps_pseudoSeed (rest := cmdInit s.params ++ rest) hp).trans (steps_succ (step_init rfl hb rfl)),
    ⟨rfl, hb, rfl, rfl, rfl⟩, streamHolds_initContext _ _ _⟩

/-- `xxh.write` appends its chunk to the stream. -/
theorem steps_pseudoWrite {a n : Word} (hp : s.pending = pseudoWrite s.params a n ++ rest)
    (hd : StreamHolds s.ctx seed d) (hr : n ≠ 0 → RangeReady s a.toNat n.toNat)
    (hfits : d.length + n.toNat ≤ 2 ^ 64 - 1) :
    ∃ t, steps 3 s = .next t ∧ RanTo rest s t ∧
      StreamHolds t.ctx seed (d ++ rangeBytes s.mem a.toNat n.toNat) := by
  obtain ⟨t, ht, hran, hstream⟩ := step_write (rest := rest) (s := { s with
    srcAddr := ⟨a, true, true⟩, lenIn := ⟨n, true, true⟩, pending := cmdWrite s.params ++ rest })
    rfl hb rfl rfl hd hr hfits
  exact ⟨t, (steps_pseudoSrc (rest := cmdWrite s.params ++ rest) hp).trans (steps_succ ht),
    ⟨hran.pending, hran.busy, hran.params, hran.mem, hran.modelFaults⟩, hstream⟩

/-- `xxh.finish` reads XXH64 of the stream (`status` is the value its WAIT read before). -/
theorem steps_pseudoFinish (hp : s.pending = pseudoFinish s.params ++ rest) (hd : StreamHolds s.ctx seed d) :
    ∃ status, steps 3 s = .next { s with
      digest := xxh64 d seed, digestValid := true, err := .none, unobserved := [],
      reads := ⟨s.params.xxhBase + offDigest, 8, xxh64 d seed⟩ :: status :: s.reads, pending := rest } := by
  obtain ⟨hv, -⟩ := id hd
  rw [← hd.streamDigest_eq]
  exact ⟨_, calc steps 3 s
      _ = steps 2 _ := steps_succ (step_finish hp hb hv)
      _ = steps 1 _ := steps_succ (step_wait rfl hb)
      _ = steps 0 _ := steps_succ (step_read_digest rfl hb rfl)
      _ = .next _ := rfl⟩

/-- A call leaves the stream with its bytes appended: a digest read appends none, nor does a one-shot hash. -/
theorem steps_call (c : HostCall) (hp : s.pending = c.events s.params ++ rest) (hd : StreamHolds s.ctx seed d)
    (hr : c.ready s) (hfits : (d ++ c.bytes s.mem).length < 2 ^ 64) :
    ∃ t, steps (c.events s.params).length s = .next t ∧ RanTo rest s t ∧
      StreamHolds t.ctx seed (d ++ c.bytes s.mem) := by
  cases c with
  | chunk a n =>
    have hlen : (rangeBytes s.mem a.toNat n.toNat).length = n.toNat := by simp [rangeBytes]
    rw [HostCall.bytes, List.length_append, hlen] at hfits
    exact steps_pseudoWrite hb hp hd hr (by omega)
  | query =>
    obtain ⟨_, h⟩ := steps_pseudoFinish hb hp hd
    rw [HostCall.bytes, List.append_nil]
    exact ⟨_, h, ⟨rfl, hb, rfl, rfl, rfl⟩, hd⟩
  | oneshot a n seed' =>
    obtain ⟨_, h⟩ := steps_pseudoHash hb hp hr
    rw [HostCall.bytes, List.append_nil]
    exact ⟨_, h, ⟨rfl, hb, rfl, rfl, rfl⟩, hd⟩

end pseudo

/-- Which ranges are ready is a matter of the parameters. -/
theorem HostCall.ready_congr {s t : State} (h : t.params = s.params) {c : HostCall} (hr : c.ready s) : c.ready t := by
  cases c with
  | query => trivial
  | chunk | oneshot =>
    intro hn
    rw [RangeReady, h]
    exact hr hn

theorem append_streamBytes_cons (d : List Byte) (m : Memory) (c : HostCall) (calls : List HostCall) :
    d ++ streamBytes m (c :: calls) = (d ++ c.bytes m) ++ streamBytes m calls := by
  rw [streamBytes, List.flatMap_cons, ← List.append_assoc, streamBytes]

/-- A list of calls leaves the stream with all their bytes appended in order. -/
theorem steps_calls {s : State} {rest : List Event} {seed : Word} {d : List Byte} {calls : List HostCall}
    (hb : s.busy = false) (hp : s.pending = calls.flatMap (HostCall.events s.params) ++ rest)
    (hd : StreamHolds s.ctx seed d) (hr : ∀ c ∈ calls, c.ready s)
    (hfits : (d ++ streamBytes s.mem calls).length < 2 ^ 64) :
    ∃ t, steps (calls.flatMap (HostCall.events s.params)).length s = .next t ∧ RanTo rest s t ∧
      StreamHolds t.ctx seed (d ++ streamBytes s.mem calls) := by
  induction calls generalizing s d with
  | nil => exact ⟨s, rfl, ⟨hp, hb, rfl, rfl, rfl⟩, by rwa [streamBytes, List.flatMap_nil, List.append_nil]⟩
  | cons c calls ih =>
    rw [List.flatMap_cons] at hp ⊢
    rw [append_streamBytes_cons] at hfits ⊢
    obtain ⟨t, ht, hran, hstream⟩ := steps_call hb c (by rw [hp, List.append_assoc]) hd (hr c List.mem_cons_self)
      (Nat.lt_of_le_of_lt (by simp) hfits)
    obtain ⟨u, hu, hran', hstream'⟩ := ih hran.busy (by rw [hran.params, hran.pending]) hstream
      (fun c' hc => HostCall.ready_congr hran.params (hr c' (List.mem_cons_of_mem _ hc))) (by rwa [hran.mem])
    rw [hran.params] at hu
    rw [hran.mem] at hstream'
    exact ⟨u, steps_append ht hu, hran.trans hran', hstream'⟩

/-- STATUS once a stream has been finished: CTX_VALID and DIGEST_VALID are set, ERR and BUSY are clear. -/
theorem statusWord_finished {s : State} (he : s.err = .none) (hd : s.digestValid = true) (hv : s.ctx.valid = true)
    (hb : s.busy = false) : statusWord s = 0x00000006 := by
  rw [statusWord, he, hd, hv, hb]
  rfl

/-- Settles O37: `xxh.init` starts the empty stream, the calls append their bytes to it, and `xxh.finish` reads XXH64 of it. -/
theorem streamedDigestEqualsOneShot : Obligations.StreamedDigestEqualsOneShot := by
  intro s seed calls hb hp hr hfits
  rw [hp]
  rw [streamProgram, List.append_assoc] at hp ⊢
  obtain ⟨t, ht, hran, hstream⟩ := steps_pseudoInit hb hp
  rw [← hran.mem] at hfits ⊢
  obtain ⟨u, hu, hran', hstream'⟩ := steps_calls hran.busy (by rw [hran.params, hran.pending]) hstream
    (fun c hc => HostCall.ready_congr hran.params (hr c hc)) hfits
  obtain ⟨_, hv⟩ := steps_pseudoFinish (rest := []) hran'.busy
    (by rw [hran'.params, hran.params, hran'.pending, List.append_nil]) hstream'
  obtain ⟨-, -, hparams, -, hfaults⟩ := hran.trans hran'
  rw [hran.params] at hu
  refine ⟨_, steps_append ht (steps_append hu hv), rfl, rfl, ?_, ?_, hfaults⟩
  · rw [hparams]; rfl
  · obtain ⟨hvalid, -⟩ := id hstream'
    exact statusWord_finished rfl rfl hvalid hran'.busy

end Sys2Proof.Machine
end

section
/-! The one-shot command (43_oneshot.md): what HASH writes and what it leaves alone (rules R190 and R193), and the two paths of
XXH64 (rules R191 and R192). -/
namespace Sys2Proof.Machine

/-- Settles O32: HASH raises ADDR_RANGE, which changes only ERR and BUSY, or completes with ERR NONE. -/
theorem hashFrame : Obligations.HashFrame := by
  intro s t h
  obtain ⟨-, -, rfl⟩ | rfl := execHash_next h
  · exact ⟨rfl, keepsHostSide_blockUpdate .., rfl, rfl, fun _ => ⟨rfl, rfl⟩⟩
  · exact ⟨rfl, keepsHostSide_blockUpdate .., rfl, rfl, fun herr => absurd rfl herr⟩

/-- Settles O31: a HASH whose range is ready takes the digest of its input. -/
theorem hashWritesDigest : Obligations.HashWritesDigest := fun _ hr => hash_ready hr

/-- Settles O33: the two branches of XXH64, with the bytes after the stripes counted by STRIPES. -/
theorem oneShotPathByLength : Obligations.OneShotPathByLength := fun _ seed =>
  ⟨fun hlt => xxh64_of_lt hlt seed, fun hge => xxh64_of_le hge seed⟩

end Sys2Proof.Machine
end

section
/-! Command errors and model faults (60_exceptions.md): a command that ends with an error changes only ERR and BUSY (rule R210),
when each error is raised (rules R212 to R214 and R218), and what joins the record of model faults (rules R215 and R216). -/
namespace Sys2Proof.Machine

@[simp] theorem commandUses_write_valid {s : State} (hv : s.ctx.valid = true) : commandUses .write s = chunkUses s :=
  if_pos hv

/-- NO_CONTEXT comes before any operand is read (60_exceptions.md rule R220). -/
@[simp] theorem commandUses_write_noContext {s : State} (hv : s.ctx.valid = false) : commandUses .write s = [] := by
  simp [commandUses, hv]

/-- An instruction that answers records the unwritten operand registers it reads, errors included, and nothing else. -/
theorem exec_modelFaults {i : Instr} {s t : State} (h : exec i s = .next t) :
    t.modelFaults = commandUses i s ++ s.modelFaults := by
  cases i with
  | init => rw [execInit_next h]; rfl
  | write =>
    obtain ⟨hv, rfl⟩ | ⟨hv, ⟨-, -, rfl⟩ | ⟨-, rfl⟩ | ⟨-, rfl⟩⟩ := execWrite_next h <;> simp [hv]
  | finish => obtain ⟨-, rfl⟩ | ⟨-, rfl⟩ := execFinish_next h <;> rfl
  | hash => obtain ⟨-, -, rfl⟩ | rfl := execHash_next h <;> rfl
  | _ => cases h; rfl

/-- An event may add to the record of model faults and takes nothing out of it. -/
theorem runEvent_modelFaults {e : Event} {s t : State} (h : runEvent e s = .next t) :
    ∃ us, t.modelFaults = us ++ s.modelFaults := by
  obtain ⟨_, _, _, _, -, -, -, -, h⟩ | ⟨-, rfl⟩ | ⟨_, _, _, rfl⟩ | ⟨_, _, _, us, rfl | rfl⟩ | ⟨-, -, rfl⟩ |
    ⟨_, _, -, rfl⟩ | ⟨-, rfl⟩ | ⟨_, rfl⟩ := runEvent_next h
  · exact ⟨_, (exec_modelFaults h :)⟩
  iterate 2 exact ⟨[], rfl⟩
  iterate 2 exact ⟨us, rfl⟩
  all_goals exact ⟨[], rfl⟩

/-- Settles O21: each command's record is that of its operand reads, and neither an idle step nor an event clears one. -/
theorem unspecifiedUsesAreRecorded : Obligations.UnspecifiedUsesAreRecorded := by
  refine ⟨fun _ _ h => exec_modelFaults h, fun s t h hv => ?_, fun s t h hv => ?_, fun _ _ h => exec_modelFaults h,
    fun s t h => ?_, fun s t h => ?_⟩
  · rw [exec_modelFaults h, commandUses_write_noContext hv, List.nil_append]
  · rw [exec_modelFaults h, commandUses_write_valid hv, chunkUses]
  · rw [exec_modelFaults h, commandUses, chunkUses]
  · obtain ⟨-, rfl⟩ | ⟨e, rest, -, he⟩ := step_next h
    · exact ⟨[], rfl⟩
    · exact (runEvent_modelFaults he :)

/-- Whatever HASH answers, ERR is ADDR_RANGE or NONE. -/
theorem exec_hash_err {s t : State} (h : exec .hash s = .next t) : t.err = .addrRange ∨ t.err = .none := by
  obtain ⟨-, -, rfl⟩ | rfl := execHash_next h
  · exact .inl rfl
  · exact .inr rfl

/-- Settles O22: WRITE and FINISH check for a context before anything else, and HASH has only the range check. -/
theorem noContextError : Obligations.NoContextError := fun _ =>
  ⟨fun hv => ⟨exec_write_noContext hv, if_pos hv⟩,
    fun _ h => by obtain herr | herr := exec_hash_err h <;> rw [herr] <;> decide⟩

/-- Settles O23: a WRITE that passes the two checks before it fails on the length, and HASH has only the range check. -/
theorem lenOverflowError : Obligations.LenOverflowError := by
  refine fun s => ⟨fun hv hr ho => ?_, fun t h => ?_⟩
  · rw [exec_write_lenOverflow hv hr ho, commandUses_write_valid hv]; rfl
  · obtain herr | herr := exec_hash_err h <;> rw [herr] <;> decide

/-- Settles O24: a chunk past the top of the source space stops both commands at the range check. -/
theorem addrRangeError : Obligations.AddrRangeError := by
  intro s h0 hb
  have hr : ¬ ChunkFits s := not_chunkFits_iff.2 ⟨h0, hb⟩
  refine ⟨fun hv => ?_, exec_hash_addrRange hr⟩
  rw [exec_write_addrRange hv hr, commandUses_write_valid hv]; rfl

/-- Settles O25: INIT never fails, and where another command does it raised a command error, after its operand reads. -/
theorem failedCommandIsPrecise : Obligations.FailedCommandIsPrecise := by
  intro i s t hi h herr
  obtain rfl | rfl | rfl | rfl := hi
  · rw [execInit_next h] at herr; exact absurd rfl herr
  · obtain ⟨hv, rfl⟩ | ⟨hv, ⟨-, -, rfl⟩ | ⟨-, rfl⟩ | ⟨-, rfl⟩⟩ := execWrite_next h
    · rw [commandUses_write_noContext hv]; rfl
    · rw [commandUses_write_valid hv]; rfl
    · rw [commandUses_write_valid hv]; rfl
    · exact absurd rfl herr
  · obtain ⟨-, rfl⟩ | ⟨-, rfl⟩ := execFinish_next h
    · rfl
    · exact absurd rfl herr
  · obtain ⟨-, -, rfl⟩ | rfl := execHash_next h
    · rfl
    · exact absurd rfl herr

/-- While BUSY is 0, issuing a word that does not decode raises ILLEGAL_CMD. -/
theorem issueCommand_error {s : State} {w : Word32} {e : Reject} (hb : s.busy = false) (hd : decodeCmd w = .error e) :
    issueCommand w s = .next (raiseCmdError .illegalCmd (startCommand s)) := by
  simp [issueCommand, hb, hd]

/-- Settles O18: the step takes the event, the CMD write issues the word, and the error leaves BUSY clear as it was. -/
theorem illegalWordOnlySetsErr : Obligations.IllegalWordOnlySetsErr := by
  intro s rest width v e hp hw hb hd
  calc step s = runEvent (.write (s.params.xxhBase + offCmd) width v) (takeEvent rest s) := step_cons hp
    _ = issueCommand (loHalf v) (takeEvent rest s) := runEvent_write_cmd (s := takeEvent rest s) hw
    _ = .next (raiseCmdError .illegalCmd (startCommand (takeEvent rest s))) := issueCommand_error hb hd
    _ = _ := by rw [raiseCmdError, ← hb]; rfl

/-- A legal read of DIGEST or a half of it gives the value at its offset; before any result that is a model fault. -/
theorem runEvent_read_digest {s : State} {off width : Nat} (hb : s.busy = false) (hoff : coversDigest off = true)
    (hlegal : legalAccess off width = true) :
    runEvent (.read (s.params.xxhBase + off) width) s = .next (logRead (s.params.xxhBase + off) width
      (readValue s off width) (noteUses (if s.digestValid then [] else [.digest]) s)) := by
  have hrange : offDigest ≤ off ∧ off < offDigest + 8 := by
    rwa [coversDigest, Bool.and_eq_true, decide_eq_true_eq, decide_eq_true_eq] at hoff
  rw [offDigest] at hrange
  have hlt : off < windowSize := by rw [windowSize]; omega
  have hstatus : coversStatus off width = false := by
    simp [coversStatus, offStatus, offCmd, show off ≠ 4 by omega, show off ≠ 0 by omega]
  have huse : digestUse off s = if s.digestValid then [] else [.digest] := by
    cases hv : s.digestValid <;> simp [digestUse, hoff, hv]
  rw [runEvent_read hlt hlegal (by rw [hb, Bool.false_and]), huse]
  simp only [afterRead, hstatus, Bool.false_eq_true, if_false]

/-- Settles O44: the whole of DIGEST and its two halves are legal reads of it. -/
theorem digestReadNeedsResult : Obligations.DigestReadNeedsResult := fun _ hb =>
  ⟨_, rfl, runEvent_read_digest hb rfl rfl, runEvent_read_digest hb rfl rfl, runEvent_read_digest hb rfl rfl⟩

end Sys2Proof.Machine
end

section
/-! Reset and hazards (70_reset_and_hazards.md): a reset event (rule R240), accesses while BUSY = 1 (rule R251), and the source
stability of WRITE and HASH (rule R252). -/
namespace Sys2Proof.Machine

/-- Reset leaves every operand register unwritten (10_state.md rule R41). -/
@[simp] theorem operandReg_resetBlock (s : State) (r : OperandName) : operandReg (resetBlock s) r = .unwritten := by
  cases r <;> rfl

/-- Settles O2: the event resets the block, and the stream state is a function of the context. -/
theorem resetEventResetsBlock : Obligations.ResetEventResetsBlock := by
  intro s rest hp
  refine ⟨resetBlock (takeEvent rest s), step_cons hp, rfl, rfl, (streamState_uninit_iff _).2 rfl, rfl, rfl, fun r => ?_,
    fun _ => rfl, rfl, rfl, rfl, rfl⟩
  rw [operandReg_resetBlock]
  exact ⟨rfl, rfl⟩

/-- While BUSY is 1, no word is issued. -/
theorem issueCommand_busy {s : State} (hb : s.busy = true) (w : Word32) : issueCommand w s = .refused .cmdWhileBusy :=
  if_pos hb

@[simp] theorem setOperand_busy (s : State) (reg : OperandReg) (r : OperandName) :
    (s.setOperand reg r).busy = s.busy := by
  cases r <;> rfl

/-- Settles O19: a CMD write issues a word, and an operand write does not ask for BUSY. -/
theorem commandWhileBusyRefused : Obligations.CommandWhileBusyRefused := by
  refine fun s rest v hb => ⟨fun width hw hp => ?_, fun r hp => ⟨_, step_write_operand hp, ?_, ?_⟩⟩
  · calc step s = runEvent (.write (s.params.xxhBase + offCmd) width v) (takeEvent rest s) := step_cons hp
      _ = issueCommand (loHalf v) (takeEvent rest s) := runEvent_write_cmd (s := takeEvent rest s) hw
      _ = .refused .cmdWhileBusy := issueCommand_busy (by exact hb) _
  · rw [operandReg_setOperand, if_pos rfl]
  · rw [setOperand_busy, takeEvent_busy, hb]

/-- A WRITE with a context, or with SRC_ADDR and LEN_IN written, opens its source range. -/
theorem sourceRange_write_open {s : State}
    (h : s.ctx.valid = true ∨ (s.srcAddr.written = true ∧ s.lenIn.written = true)) :
    sourceRange .write s = [(s.srcAddr.value.toNat, s.lenIn.value.toNat)] :=
  if_pos (by simpa using h)

/-- Without a context and without both written, it opens none (log 27). -/
theorem sourceRange_write_none {s : State} (hv : s.ctx.valid = false)
    (h : s.srcAddr.written = false ∨ s.lenIn.written = false) : sourceRange .write s = [] :=
  if_neg (by simp only [hv, Bool.false_or, Bool.and_eq_true]; obtain h | h := h <;> simp [h])

/-- An address of an open range. -/
theorem inOpenRange_of_mem {s : State} {r : Nat × Nat} {a : Nat} (hr : r ∈ s.unobserved) (hlo : r.1 ≤ a)
    (hhi : a < r.1 + r.2) : inOpenRange s a = true :=
  List.any_eq_true.2 ⟨r, hr, by simp [hlo, hhi]⟩

/-- A store to source memory in an open range is refused. -/
theorem runEvent_store_refused {s : State} {a : Nat} (b : Byte) (ha : a < 2 ^ s.params.addrW)
    (hkind : sourceKind s.params.regions a = some .memory) (hopen : inOpenRange s a = true) :
    runEvent (.store a b) s = .refused .storeIntoRunningSource := by
  simp only [runEvent, hostStore, ha, hkind, hopen, and_self, if_true]

/-- `t` is where the CMD write of the command i ends from `s`, as far as a later host store can tell: the rest of the program
is still to come, the block is not busy, the parameters and the memory are as before, and the command's source range is open. -/
structure EndsCommand (i : Instr) (rest : List Event) (s t : State) : Prop where
  pending : t.pending = rest
  busy : t.busy = false
  params : t.params = s.params
  mem : t.mem = s.mem
  unobserved : t.unobserved = sourceRange i s ++ s.unobserved

/-- WRITE and HASH keep the host's side of the state, whatever they answer. -/
theorem exec_keepsHostSide {i : Instr} {s t : State} (hi : i = .write ∨ i = .hash) (h : exec i s = .next t) :
    KeepsHostSide s t ∧ t.busy = false := by
  obtain rfl | rfl := hi
  · obtain ⟨-, -, -, hhost, hbusy⟩ := writeFrame s t h
    exact ⟨hhost, hbusy⟩
  · obtain ⟨-, hhost, hbusy, -⟩ := hashFrame s t h
    exact ⟨hhost, hbusy⟩

/-- A run that answers a next state took its first step. -/
theorem steps_succ_next {s t : State} {k : Nat} (h : steps (k + 1) s = .next t) :
    ∃ c, step s = .next c ∧ steps k c = .next t := by
  rw [steps] at h
  cases hs : step s with
  | next c => rw [hs] at h; exact ⟨c, rfl, h⟩
  | fault f => rw [hs] at h; cases h
  | refused r => rw [hs] at h; cases h

/-- A WAIT while BUSY = 0 closes every source range and leaves the memory alone. -/
theorem step_wait_next {s t : State} {rest : List Event} (hp : s.pending = .wait :: rest) (hb : s.busy = false)
    (h : step s = .next t) : t.pending = rest ∧ t.unobserved = [] ∧ t.params = s.params ∧ t.mem = s.mem := by
  rw [step_wait hp hb] at h
  cases h
  exact ⟨rfl, rfl, rfl, rfl⟩

section sourceCommand
/-! The CMD write of a WRITE or HASH, and a store into the range it holds. -/
variable {s t : State} {w : Word32} {i : Instr} {rest : List Event} {a : Nat} {b : Byte}
  (hi : i = .write ∨ i = .hash) (hd : decodeCmd w = .ok i) (hb : s.busy = false)
include hi hd hb

/-- The step opens the range before the command runs, and the command leaves it open. -/
theorem step_endsCommand (hp : s.pending = w32 s.params offCmd w :: rest) (h : step s = .next t) :
    EndsCommand i rest s t := by
  rw [stepRunsWrittenCommand s rest 4 _ i hp (.inl rfl) hb (by rwa [loHalf_setWidth])] at h
  obtain ⟨⟨-, -, -, -, hparams, -, hopen, hpending, -⟩, hbusy⟩ := exec_keepsHostSide hi h
  exact ⟨hpending, hbusy, hparams, (exec_mem h :), hopen⟩

variable (ha : a < 2 ^ s.params.addrW) (hkind : sourceKind s.params.regions a = some .memory)
include ha hkind

/-- As the next event, a store into a range the command opened is refused. -/
theorem store_after_command_refused {r : Nat × Nat} (hr : r ∈ sourceRange i s) (hlo : r.1 ≤ a) (hhi : a < r.1 + r.2)
    (hp : s.pending = w32 s.params offCmd w :: .store a b :: rest) (h : step s = .next t) :
    step t = .refused .storeIntoRunningSource := by
  have ht := step_endsCommand hi hd hb hp h
  have hmem : r ∈ t.unobserved := ht.unobserved ▸ List.mem_append_left _ hr
  rw [← ht.params] at ha hkind
  rw [step_cons ht.pending]
  exact runEvent_store_refused b ha hkind (inOpenRange_of_mem hmem hlo hhi)

variable (hm : Memory.wf s.mem = true)
include hm

/-- Where the command opened none, and no earlier range holds the address, the store is taken. -/
theorem store_after_command_taken (hr : sourceRange i s = []) (hout : ∀ r ∈ s.unobserved, a < r.1 ∨ r.1 + r.2 ≤ a)
    (hp : s.pending = w32 s.params offCmd w :: .store a b :: rest) (h : step s = .next t) :
    ∃ u, step t = .next u ∧ Memory.read u.mem a = b := by
  have ht := step_endsCommand hi hd hb hp h
  have hopen : t.unobserved = s.unobserved := by rw [ht.unobserved, hr, List.nil_append]
  rw [← ht.params] at ha hkind
  rw [← ht.mem] at hm
  obtain ⟨u, hu, hread, -⟩ := hostStoreIsRead t rest a b hm ht.pending ha hkind (hopen ▸ hout)
  exact ⟨u, hu, hread⟩

/-- A WAIT after the command closes every range, and the store is taken. -/
theorem store_after_wait_taken (hp : s.pending = w32 s.params offCmd w :: .wait :: .store a b :: rest)
    (h : steps 2 s = .next t) : ∃ u, step t = .next u ∧ Memory.read u.mem a = b := by
  obtain ⟨c, hc, h⟩ := steps_succ_next h
  obtain ⟨t, hwait, ⟨⟩⟩ := steps_succ_next h
  have hend := step_endsCommand hi hd hb hp hc
  obtain ⟨hpending, hclosed, hparams, hmem⟩ := step_wait_next hend.pending hend.busy hwait
  rw [← hend.params, ← hparams] at ha hkind
  rw [← hend.mem, ← hmem] at hm
  have hout : ∀ r ∈ t.unobserved, a < r.1 ∨ r.1 + r.2 ≤ a := by rw [hclosed]; exact List.forall_mem_nil _
  obtain ⟨u, hu, hread, -⟩ := hostStoreIsRead t rest a b hm hpending ha hkind hout
  exact ⟨u, hu, hread⟩

end sourceCommand

/-- Settles O46: the range is open after the CMD write, unless the WRITE opens none, and a WAIT closes it. -/
theorem sourceStability : Obligations.SourceStability := by
  intro s w rest a b t hb hm hw hlo hhi ha hkind
  refine ⟨fun hopen hp h => ?_, fun hw2 hv hunwritten hout hp h => ?_, fun hp h => ?_⟩
  · obtain rfl | rfl := hw
    · have hr := sourceRange_write_open (hopen.resolve_left (by decide))
      exact store_after_command_refused (.inl rfl) rfl hb ha hkind (hr ▸ List.mem_singleton_self _) hlo hhi hp h
    · exact store_after_command_refused (.inr rfl) rfl hb ha hkind (List.mem_singleton_self _) hlo hhi hp h
  · subst hw2
    exact store_after_command_taken (.inl rfl) rfl hb ha hkind hm (sourceRange_write_none hv hunwritten) hout hp h
  · obtain rfl | rfl := hw
    · exact store_after_wait_taken (.inl rfl) rfl hb ha hkind hm hp h
    · exact store_after_wait_taken (.inr rfl) rfl hb ha hkind hm hp h

end Sys2Proof.Machine
end
